-- ==== Sys2Proof/Word.lean ====
section
/-! DEFINITION. The two word widths of the machine (00_scope.md R8): the 8-bit data byte and the 16-bit address
word. Both hold bit patterns; nothing of the machine depends on a signed reading (R17). -/
namespace Sys2Proof

/-- A data byte: A, X, Y, SP, SR and a memory cell (00_scope.md R8). -/
abbrev Byte := BitVec 8

/-- An address or program counter (00_scope.md R8). -/
abbrev Word := BitVec 16

end Sys2Proof
end

