-- ==== Sys2Proof/Config.lean ====
section
/-! DEFINITION. The parameters of 00_scope.md R9, as one record of plain data, and the one free value of the model.
The record is carried by State unchanged (log 1), so that every statement about a state is a statement about every
configuration. -/
namespace Sys2Proof

/-- `P_ADDR_OVERFLOW` (00_scope.md R19): what a 16-bit address computation that passes 0xFFFF does. -/
inductive OverflowPolicy
  | wrap   -- modulo 2^16
  | fault  -- AddressOverflow (60_exceptions.md R153)
  deriving DecidableEq, Repr

/-- `P_TSX_TXS_MODE` (43_transfer_incdec.md R115, R116). -/
inductive StackTransferMode
  | stackPath  -- TSX pulls into X, TXS pushes X
  | direct     -- TSX copies SP to X, TXS copies X to SP
  deriving DecidableEq, Repr

/-- `P_EXIT_FORMAT` (45_control_system.md R147). -/
inductive ExitFormat
  | implied    -- status 0x00, no operand
  | immediate  -- a status byte follows the opcode
  deriving DecidableEq, Repr

/-- The mnemonics `P_ZN_FROM_A` may hold (00_scope.md R9). -/
inductive ZnMnemonic
  | inx | iny | dex | dey | tax | tay | txa | tya | tsx
  deriving DecidableEq, Repr

/-- The machine's configuration: one field per parameter of 00_scope.md R9, each with the default R9 gives it.
`exitOpcode`, `printOpcode` and `exitFormat` are the three OPEN parameters of D20: absent by default (log 6). -/
structure Config where
  adcCarryIn      : Bool := false                          -- P_ADC_CARRY_IN
  ldaSetsZN       : Bool := true                           -- P_LDA_SETS_ZN
  znFromA         : List ZnMnemonic := []                  -- P_ZN_FROM_A, read as a set (log 14)
  tsxTxsMode      : StackTransferMode := .stackPath        -- P_TSX_TXS_MODE
  plaSetsZN       : Bool := true                           -- P_PLA_SETS_ZN
  jmpIndPageWrap  : Bool := false                          -- P_JMP_IND_PAGE_WRAP
  brkSkipsPadding : Bool := false                          -- P_BRK_SKIPS_PADDING
  interruptSetsI  : Bool := false                          -- P_INTERRUPT_SETS_I
  irqMaskedByI    : Bool := false                          -- P_IRQ_MASKED_BY_I
  addrOverflow    : OverflowPolicy := .wrap                -- P_ADDR_OVERFLOW
  diagExt         : Bool := false                          -- P_DIAG_EXT
  exitOpcode      : Option Byte := none                    -- P_EXIT_OPCODE
  printOpcode     : Option Byte := none                    -- P_PRINT_OPCODE
  exitFormat      : Option ExitFormat := none              -- P_EXIT_FORMAT
  deriving DecidableEq, Repr

/-- Every parameter at its default (00_scope.md R9). -/
def Config.defaults : Config := {}

/-- FREE VALUE: what the latch L holds after the n-th Reset() (10_state.md R38, 93_implementation_defined.md U4:
"any value"). It has no body, so no proof can know a value of it (log 3). -/
opaque Config.freeLoc : Nat → Word

end Sys2Proof
end

