-- ==== Sys2Proof/Syntax.lean ====
section
/-! DEFINITION. The instructions as syntax: one constructor for each row of spec/opcode_table.json, in the table's
order, with its operand bytes assembled (30_encoding.md R61, R63, R64). -/
namespace Sys2Proof

/-- The 36 rows of the opcode table (30_encoding.md R66, and the two optional rows of R69). -/
inductive Instr
  | ldaImm (imm : Byte)              -- LDA #imm
  | staZp (zp : Byte)                -- STA zp
  | staAbs (addr : Word)             -- STA abs
  | stxZp (zp : Byte)                -- STX zp
  | styZp (zp : Byte)                -- STY zp
  | adcImm (imm : Byte)              -- ADC #imm
  | adcZp (zp : Byte)                -- ADC zp
  | adcAbs (addr : Word)             -- ADC abs
  | aslA                             -- ASL A
  | tax | txa | tay | tya | tsx | txs
  | inx | iny | dex | dey
  | pha | php | pla | plp
  | clc | sec | cli | sei | clv | cld | sed
  | jmpAbs (addr : Word)             -- JMP abs
  | jmpInd (ptr : Word)              -- JMP (ind)
  | brk | nop
  | print (addr : Word)              -- PRINT addr
  | exit (status : Option Byte)      -- EXIT: none is the implied form, some s the immediate form
  deriving DecidableEq, Repr

end Sys2Proof
end

