-- ==== Sys2Proof/WellFormed.lean ====
section
/-! DEFINITION. Which instructions a configuration has. Any byte or word is a legal operand (30_encoding.md R64), so
only the two optional rows carry a check: PRINT and EXIT exist only under P_DIAG_EXT, with their parameters present,
and EXIT only in the form P_EXIT_FORMAT names (30_encoding.md R60, R69; 45_control_system.md R145). -/
namespace Sys2Proof

/-- The form of EXIT that `P_EXIT_FORMAT` names (45_control_system.md R147). -/
def ExitFormat.matchesStatus : ExitFormat → Option Byte → Bool
  | .implied, none => true
  | .immediate, some _ => true
  | .implied, some _ => false
  | .immediate, none => false

/-- The configuration has this instruction. -/
def Instr.wf (c : Config) : Instr → Bool
  | .print _ => c.diagExt && c.printOpcode.isSome
  | .exit status =>
    c.diagExt && c.exitOpcode.isSome &&
      (match c.exitFormat with
       | some f => f.matchesStatus status
       | none => false)
  | .ldaImm _ | .staZp _ | .staAbs _ | .stxZp _ | .styZp _ | .adcImm _ | .adcZp _ | .adcAbs _ | .aslA
  | .tax | .txa | .tay | .tya | .tsx | .txs | .inx | .iny | .dex | .dey
  | .pha | .php | .pla | .plp | .clc | .sec | .cli | .sei | .clv | .cld | .sed
  | .jmpAbs _ | .jmpInd _ | .brk | .nop => true

end Sys2Proof
end

