-- ==== Sys2Proof/Decode.lean ====
section
/-! DEFINITION. The decoder, total on any bytes (30_encoding.md R65), and after it the encoder. Both are written from
the dispatch table of R66 (log 13); the decoder compares all eight bits of the opcode byte and no field inside it. -/
namespace Sys2Proof

/-! ### Byte order (20_memory.md R51) -/

/-- The word with the given low and high byte: `hi:lo` of 00_scope.md R10. -/
def wordOf (lo hi : Byte) : Word := hi ++ lo

/-- `v[7:0]`. -/
def lowByte (v : Word) : Byte := v.extractLsb' 0 8

/-- `v[15:8]`. -/
def highByte (v : Word) : Byte := v.extractLsb' 8 8

/-! ### The dispatch table -/

/-- What follows an opcode byte, and the instruction the operand bytes make (30_encoding.md R60, R61). -/
inductive Handler
  | implied (i : Instr)            -- no operand byte
  | byte (mk : Byte → Instr)       -- one operand byte
  | word (mk : Word → Instr)       -- two operand bytes, low byte first (R63)

/-- One row of the dispatch table. -/
structure Row where
  opcode  : Byte
  handler : Handler

def loadStoreRows : List Row :=
  [⟨0xA9, .byte .ldaImm⟩, ⟨0x85, .byte .staZp⟩, ⟨0x8D, .word .staAbs⟩, ⟨0x86, .byte .stxZp⟩, ⟨0x84, .byte .styZp⟩]

def arithmeticRows : List Row :=
  [⟨0x69, .byte .adcImm⟩, ⟨0x65, .byte .adcZp⟩, ⟨0x6D, .word .adcAbs⟩, ⟨0x0A, .implied .aslA⟩]

def transferRows : List Row :=
  [⟨0xAA, .implied .tax⟩, ⟨0x8A, .implied .txa⟩, ⟨0xA8, .implied .tay⟩, ⟨0x98, .implied .tya⟩,
   ⟨0xBA, .implied .tsx⟩, ⟨0x9A, .implied .txs⟩]

def incDecRows : List Row :=
  [⟨0xE8, .implied .inx⟩, ⟨0xC8, .implied .iny⟩, ⟨0xCA, .implied .dex⟩, ⟨0x88, .implied .dey⟩]

def stackRows : List Row :=
  [⟨0x48, .implied .pha⟩, ⟨0x08, .implied .php⟩, ⟨0x68, .implied .pla⟩, ⟨0x28, .implied .plp⟩]

def flagRows : List Row :=
  [⟨0x18, .implied .clc⟩, ⟨0x38, .implied .sec⟩, ⟨0x58, .implied .cli⟩, ⟨0x78, .implied .sei⟩,
   ⟨0xB8, .implied .clv⟩, ⟨0xD8, .implied .cld⟩, ⟨0xF8, .implied .sed⟩]

def controlRows : List Row :=
  [⟨0x4C, .word .jmpAbs⟩, ⟨0x6C, .word .jmpInd⟩, ⟨0x00, .implied .brk⟩, ⟨0xEA, .implied .nop⟩]

/-- The 34 architectural rows (30_encoding.md R66). -/
def opcodeTable : List Row :=
  loadStoreRows ++ arithmeticRows ++ transferRows ++ incDecRows ++ stackRows ++ flagRows ++ controlRows

/-- The handler of the first row whose opcode is `op`. -/
def lookupRow (op : Byte) : List Row → Option Handler
  | [] => none
  | r :: rows => if r.opcode = op then some r.handler else lookupRow op rows

/-- EXIT's handler in the form `P_EXIT_FORMAT` names (30_encoding.md R60). -/
def exitHandler : ExitFormat → Handler
  | .implied => .implied (.exit none)
  | .immediate => .byte (fun s => .exit (some s))

/-- The two optional rows (30_encoding.md R69): decoded only under `P_DIAG_EXT`; where a parameter is absent the byte
stays unrecognized. -/
def diagHandler (c : Config) (op : Byte) : Option Handler :=
  if c.diagExt then
    if c.printOpcode = some op then some (.word .print)
    else if c.exitOpcode = some op then c.exitFormat.map exitHandler
    else none
  else none

/-- The handler an opcode byte is dispatched to; none for an unrecognized byte (30_encoding.md R65, R68). -/
def dispatch (c : Config) (op : Byte) : Option Handler :=
  match lookupRow op opcodeTable with
  | some h => some h
  | none => diagHandler c op

/-! ### Decoding bytes -/

/-- Why bytes do not decode. -/
inductive DecodeError
  | unrecognized (op : Byte)  -- the opcode byte has no row (30_encoding.md R68)
  | truncated                 -- the list ends before the instruction does; a fetch from memory never does
  deriving DecidableEq, Repr

/-- The result of decoding a list of bytes. -/
inductive Decoded
  | ok (i : Instr) (rest : List Byte)
  | error (e : DecodeError)
  deriving DecidableEq, Repr

/-- Assemble a handler's operand bytes (30_encoding.md R63, R64). -/
def assemble : Handler → List Byte → Decoded
  | .implied i, rest => .ok i rest
  | .byte mk, b :: rest => .ok (mk b) rest
  | .byte _, [] => .error .truncated
  | .word mk, lo :: hi :: rest => .ok (mk (wordOf lo hi)) rest
  | .word _, [_] => .error .truncated
  | .word _, [] => .error .truncated

/-- The decoder: the instruction at the head of the bytes, and the bytes after it. -/
def decode (c : Config) : List Byte → Decoded
  | [] => .error .truncated
  | op :: rest =>
    match dispatch c op with
    | some h => assemble h rest
    | none => .error (.unrecognized op)

/-- Length in bytes (30_encoding.md R60, R79). -/
def Instr.length : Instr → Nat
  | .ldaImm _ | .staZp _ | .stxZp _ | .styZp _ | .adcImm _ | .adcZp _ => 2
  | .staAbs _ | .adcAbs _ | .jmpAbs _ | .jmpInd _ | .print _ => 3
  | .exit none => 1
  | .exit (some _) => 2
  | .aslA | .tax | .txa | .tay | .tya | .tsx | .txs | .inx | .iny | .dex | .dey
  | .pha | .php | .pla | .plp | .clc | .sec | .cli | .sei | .clv | .cld | .sed | .brk | .nop => 1

/-! ### The encoder -/

/-- An opcode followed by a little-endian word operand. -/
def wordForm (op : Byte) (v : Word) : List Byte := [op, lowByte v, highByte v]

/-- The bytes of an instruction (30_encoding.md R60, R66, R69); none where the configuration has no opcode for it. -/
def encode (c : Config) : Instr → Option (List Byte)
  | .ldaImm v => some [0xA9, v]
  | .staZp v => some [0x85, v]
  | .staAbs v => some (wordForm 0x8D v)
  | .stxZp v => some [0x86, v]
  | .styZp v => some [0x84, v]
  | .adcImm v => some [0x69, v]
  | .adcZp v => some [0x65, v]
  | .adcAbs v => some (wordForm 0x6D v)
  | .aslA => some [0x0A]
  | .tax => some [0xAA]
  | .txa => some [0x8A]
  | .tay => some [0xA8]
  | .tya => some [0x98]
  | .tsx => some [0xBA]
  | .txs => some [0x9A]
  | .inx => some [0xE8]
  | .iny => some [0xC8]
  | .dex => some [0xCA]
  | .dey => some [0x88]
  | .pha => some [0x48]
  | .php => some [0x08]
  | .pla => some [0x68]
  | .plp => some [0x28]
  | .clc => some [0x18]
  | .sec => some [0x38]
  | .cli => some [0x58]
  | .sei => some [0x78]
  | .clv => some [0xB8]
  | .cld => some [0xD8]
  | .sed => some [0xF8]
  | .jmpAbs v => some (wordForm 0x4C v)
  | .jmpInd v => some (wordForm 0x6C v)
  | .brk => some [0x00]
  | .nop => some [0xEA]
  | .print v => if c.diagExt then c.printOpcode.map (fun op => wordForm op v) else none
  | .exit none => if c.diagExt then c.exitOpcode.map (fun op => [op]) else none
  | .exit (some s) => if c.diagExt then c.exitOpcode.map (fun op => [op, s]) else none

/-! ### Configurations that are accepted -/

/-- The opcode byte has one of the 34 rows. -/
def isTableOpcode (op : Byte) : Bool := (lookupRow op opcodeTable).isSome

/-- `P_EXIT_OPCODE` and `P_PRINT_OPCODE`, where present, are distinct from each other and from the 34 table bytes
(30_encoding.md R69). -/
def Config.distinctOpcodes (c : Config) : Bool :=
  c.exitOpcode.all (fun op => !isTableOpcode op) && c.printOpcode.all (fun op => !isTableOpcode op) &&
    (c.exitOpcode.isNone || c.exitOpcode != c.printOpcode)

/-- A configuration that construction accepts: under `P_DIAG_EXT` the opcodes are distinct (30_encoding.md R69) and
all three OPEN parameters are given (93_implementation_defined.md U8; log 7). -/
def Config.wf (c : Config) : Bool :=
  !c.diagExt || (c.distinctOpcodes && c.exitOpcode.isSome && c.printOpcode.isSome && c.exitFormat.isSome)

/-! ### The opcode table's numbering of bits -/

/-- The three bytes of a number whose bit 0 is the least significant bit of the first byte. -/
def tableBytes (nbits w : Nat) : List Byte :=
  let v := w % 2 ^ nbits
  [BitVec.ofNat 8 v, BitVec.ofNat 8 (v / 256), BitVec.ofNat 8 (v / 65536)]

/-- The instruction the decoder reads from an instruction whose bits are `w`, numbered as spec/opcode_table.json
numbers them, in the default configuration (log 6). -/
def decodeTableWord (nbits w : Nat) : Option Instr :=
  match decode Config.defaults (tableBytes nbits w) with
  | .ok i _ => some i
  | .error _ => none

end Sys2Proof
end

