-- ==== Sys2Proof/Machine/State.lean ====
section
/-! DEFINITION. The state of the machine: everything the spec gives it (10_state.md R20-R38), as plain data. -/
namespace Sys2Proof.Machine

/-- Memory: the listed bytes, addresses strictly rising; an address that is not listed reads as 0x00
(20_memory.md R47). The canonical form is `Memory.wf`. -/
abbrev Memory := List Host.Cell

/-- The privilege attribute of a write (20_memory.md R44, R46). It is an attribute of the write, not a mode
(60_exceptions.md R163). -/
inductive Privilege
  | unpriv
  | priv
  deriving DecidableEq, Repr

/-- The machine's faults.
A fault of this type stands in the run state RS. No step answers `Outcome.fault`: the spec gives the state a fault
leaves, so the step answers that state (log 2). -/
inductive Fault
  /-- Raised by `raise AddressOverflow(addr)` (60_exceptions.md R153): the fetch of an instruction byte at 0xFFFF,
  JMP (ind) at pointer 0xFFFF, the padding skip of BRK; only under P_ADDR_OVERFLOW = fault. Safe: what the machine
  would do after it is not claimed. -/
  | addressOverflow (addr : Word)
  deriving DecidableEq, Repr

/-- What the machine refuses. -/
inductive Refusal
  /-- Raised by exec's arm of an instruction without a meaning. No arm raises it. Safe: nothing is claimed of what
  the instruction does. -/
  | notModelled (mnemonic : String)
  /-- Raised by `construct` for an image of more than 65,536 bytes (20_memory.md R47, D30). Safe: no state is
  created. -/
  | imageTooLong
  /-- Raised by `construct` for a configuration that breaks 30_encoding.md R69 (93_implementation_defined.md U8).
  Safe: no state is created. -/
  | configurationRefused
  deriving DecidableEq, Repr

/-- The run state RS (10_state.md R36). -/
inductive RunState
  | running
  | halted (status : Byte)
  | faulted (fault : Fault)
  deriving DecidableEq, Repr

/-- The diagnostic events (60_exceptions.md R151). -/
inductive Event
  | badOpcode (addr : Word) (opcode : Byte)
  | writeRejected (addr : Word) (value : Byte)
  | badInterrupt (id : String)
  | print (addr : Word) (value : Byte)
  deriving DecidableEq, Repr

/-- The state (10_state.md R20, R35-R38). -/
structure State where
  a         : Byte         -- accumulator (R21)
  x         : Byte         -- index register X (R22)
  y         : Byte         -- index register Y (R22)
  sp        : Byte         -- stack pointer (R23)
  pc        : Word         -- program counter (R24)
  sr        : Byte         -- status register (R25)
  loc       : Word         -- instruction location latch L (R35)
  rs        : RunState     -- run state RS (R36)
  dl        : List Event   -- diagnostic log DL, oldest first (R37)
  mem       : Memory       -- the 64 KiB memory (20_memory.md R40)
  cfg       : Config       -- the MODEL's own: the configuration, a constant of the machine (log 1)
  freeCount : Nat          -- the MODEL's own: names the next free value of L (log 3)
  deriving DecidableEq, Repr

/-- The machine right after construction with no image (10_state.md R38, 70_reset_and_hazards.md R171, R173): the
reset vector of the zeroed memory is 0x0000. `loc` and `freeCount` are DESIGN CHOICE 0 (log 3). -/
def State.reset : State where
  a := 0x00
  x := 0x00
  y := 0x00
  sp := 0xFD
  pc := 0x0000
  sr := 0x20
  loc := 0x0000
  rs := .running
  dl := []
  mem := []
  cfg := Config.defaults
  freeCount := 0

end Sys2Proof.Machine
end

