-- ==== Sys2Proof/Machine/Flags.lean ====
section
/-! DEFINITION. The bit-flag algebra and the ALU (40_flag_algebra.md R80-R89). -/
namespace Sys2Proof.Machine

/-! ### Bit primitives -/

/-- `get_bit(v, n)` (40_flag_algebra.md R80). -/
def getBit {w : Nat} (v : BitVec w) (n : Nat) : Bool := v.getLsbD n

/-- `set_bit(v, n)` (R81). -/
def setBit {w : Nat} (v : BitVec w) (n : Nat) : BitVec w := v ||| (1#w <<< n)

/-- `clear_bit(v, n)` (R82). -/
def clearBit {w : Nat} (v : BitVec w) (n : Nat) : BitVec w := v &&& ~~~(1#w <<< n)

/-- Write bit `n`: the two primitives chosen by the bit's new value. -/
def putBit {w : Nat} (v : BitVec w) (n : Nat) (b : Bool) : BitVec w := if b then setBit v n else clearBit v n

/-! ### The status register's bits (10_state.md R25) -/

def bitC : Nat := 0
def bitZ : Nat := 1
def bitI : Nat := 2
def bitD : Nat := 3
def bitB : Nat := 4
def bitUnused : Nat := 5
def bitV : Nat := 6
def bitN : Nat := 7

/-- SetZN on a status byte: Z and N from `v`, no other bit (40_flag_algebra.md R84). -/
def zeroNegative (v : Byte) (sr : Byte) : Byte := putBit (putBit sr bitZ (v == 0x00)) bitN (getBit v 7)

/-! ### The ALU (40_flag_algebra.md R86) -/

inductive AluOp
  | add | shl | inc | dec | pass
  deriving DecidableEq, Repr

/-- The ALU's outputs; `cout` is none where the op produces no carry. -/
structure AluResult where
  res  : Byte
  cout : Option Bool
  zero : Bool
  neg  : Bool
  deriving DecidableEq, Repr

/-- `zero` and `neg` are read off the result for every op. -/
def aluResult (res : Byte) (cout : Option Bool) : AluResult := ⟨res, cout, res == 0x00, getBit res 7⟩

/-- The 16-bit sum of two zero-extended bytes and a carry (R86, R87). -/
def wideSum (a b : Byte) (cin : Bool) : Word := a.zeroExtend 16 + b.zeroExtend 16 + (if cin then 1 else 0)

/-- The combinational ALU; `carryIn` is `P_ADC_CARRY_IN`. -/
def alu (carryIn : Bool) (op : AluOp) (a b : Byte) (cin : Bool) : AluResult :=
  match op with
  | .add =>
    let s := wideSum a b (carryIn && cin)
    aluResult (s.setWidth 8) (some (getBit s 8))
  | .shl => aluResult ((a <<< 1) &&& 0xFE) (some (getBit a 7))
  | .inc => aluResult (a + 1) none
  | .dec => aluResult (a - 1) none
  | .pass => aluResult a none

/-- The status byte with C from the ALU's carry, or unchanged where the op produces none (R86). -/
def putCarry (cout : Option Bool) (sr : Byte) : Byte :=
  match cout with
  | some b => putBit sr bitC b
  | none => sr

end Sys2Proof.Machine
end

