-- ==== Sys2Proof/Machine/Ops.lean ====
section
/-! DEFINITION. The named operations over memory, registers, the diagnostic log, the stack and the run state, and the
one trap entry and reset sequence every path shares. -/
namespace Sys2Proof.Machine

/-! ### Memory as data (20_memory.md R40, R43, R47) -/

/-- What an address that is not listed reads as: memory is zero-initialized (20_memory.md R47; log 12). -/
def Memory.unlisted : Byte := 0x00

/-- The byte at an address. -/
def Memory.read : Memory → Nat → Byte
  | [], _ => Memory.unlisted
  | (k, v) :: m, addr => if k = addr then v else Memory.read m addr

/-- Put a cell in its place among rising addresses. -/
def Memory.insert : Memory → Nat → Byte → Memory
  | [], addr, v => [(addr, v)]
  | (k, w) :: m, addr, v => if addr < k then (addr, v) :: (k, w) :: m else (k, w) :: Memory.insert m addr v

/-- Unlist an address. -/
def Memory.erase (m : Memory) (addr : Nat) : Memory := m.filter (fun cell => cell.1 != addr)

/-- The memory with one byte replaced. The byte an unlisted address reads as is not listed. -/
def Memory.write (m : Memory) (addr : Nat) (v : Byte) : Memory :=
  if v = Memory.unlisted then Memory.erase m addr else Memory.insert (Memory.erase m addr) addr v

/-- Every listed address is at least `lo`, they rise strictly and stay below 65,536, and no listed byte is the
unlisted one. -/
def Memory.wfFrom : Nat → Memory → Bool
  | _, [] => true
  | lo, (k, v) :: m => decide (lo ≤ k) && decide (k < 65536) && v != Memory.unlisted && Memory.wfFrom (k + 1) m

/-- The canonical form. -/
def Memory.wf (m : Memory) : Bool := Memory.wfFrom 0 m

/-! ### Register writes -/

def setA (v : Byte) (s : State) : State := { s with a := v }
def setX (v : Byte) (s : State) : State := { s with x := v }
def setY (v : Byte) (s : State) : State := { s with y := v }
def setSP (v : Byte) (s : State) : State := { s with sp := v }
def setPC (v : Word) (s : State) : State := { s with pc := v }
def setSR (v : Byte) (s : State) : State := { s with sr := v }

/-- Write one bit of SR; no other bit changes (00_scope.md R12). -/
def setFlag (n : Nat) (b : Bool) (s : State) : State := setSR (putBit s.sr n b) s

/-- `SetZN(v)` (40_flag_algebra.md R84). -/
def setZN (v : Byte) (s : State) : State := setSR (zeroNegative v s.sr) s

/-- `SetZN_for(m, r)` (40_flag_algebra.md R85): Z and N from A where `P_ZN_FROM_A` holds `m`, else from `r`. -/
def setZNFor (m : ZnMnemonic) (r : Byte) (s : State) : State :=
  setZN (if s.cfg.znFromA.contains m then s.a else r) s

/-! ### Diagnostics and the run state -/

/-- `emit D(args)`: append to DL, nothing else (60_exceptions.md R150). -/
def emit (e : Event) (s : State) : State := { s with dl := s.dl ++ [e] }

/-- `raise F`: RS becomes Faulted, nothing else (60_exceptions.md R153). -/
def raise (f : Fault) (s : State) : State := { s with rs := .faulted f }

/-- `halt(status)`: RS becomes Halted, nothing else (45_control_system.md R147). -/
def halt (status : Byte) (s : State) : State := { s with rs := .halted status }

/-! ### Memory access (20_memory.md R41-R46) -/

/-- `MemRead(addr, 1)` (20_memory.md R43). -/
def memRead (addr : Word) (s : State) : Byte := s.mem.read addr.toNat

/-- The stack page or the ROM/vector region (20_memory.md R41). -/
def isProtected (addr : Word) : Bool :=
  (decide (0x0100 ≤ addr.toNat) && decide (addr.toNat ≤ 0x01FF)) || decide (0xFF00 ≤ addr.toNat)

/-- `MemWrite(addr, 1, v, priv)` (20_memory.md R44, R45): a refused write only appends WriteRejected. -/
def memWrite (addr : Word) (v : Byte) (p : Privilege) (s : State) : State :=
  if p = .unpriv ∧ isProtected addr = true then emit (.writeRejected addr v) s
  else { s with mem := s.mem.write addr.toNat v }

/-- A run of bytes written one by one through `MemWrite`, from `addr` up, modulo 2^16 (20_memory.md R50). -/
def writeRange : Word → List Byte → Privilege → State → State
  | _, [], _, s => s
  | addr, b :: bs, p, s => writeRange (addr + 1) bs p (memWrite addr b p s)

/-- A privileged write of a run of bytes. -/
def placeBytes (addr : Word) (bytes : List Byte) (s : State) : State := writeRange addr bytes .priv s

/-- The little-endian word at `addr` and `addr + 1` (20_memory.md R51). -/
def readWord (addr : Word) (s : State) : Word := wordOf (memRead addr s) (memRead (addr + 1) s)

/-- A checked address increment (00_scope.md R19): wraps, or is an AddressOverflow under `P_ADDR_OVERFLOW` = fault. -/
def nextAddr (addr : Word) (s : State) : Except Fault Word :=
  if addr = 0xFFFF ∧ s.cfg.addrOverflow = .fault then .error (.addressOverflow addr) else .ok (addr + 1)

/-! ### The stack (44_stack_flags.md R125, R126) -/

/-- `0x0100 + SP`. -/
def stackAddr (sp : Byte) : Word := 0x0100 + sp.zeroExtend 16

/-- `Push(v)`: a privileged write at the stack address, then SP - 1 mod 2^8. -/
def push (v : Byte) (s : State) : State := setSP (s.sp - 1) (memWrite (stackAddr s.sp) v .priv s)

/-- `Pull()`'s effect: SP + 1 mod 2^8. -/
def pullSP (s : State) : State := setSP (s.sp + 1) s

/-- `Pull()`'s value: the byte at the stack address after SP + 1. -/
def pullByte (s : State) : Byte := memRead (stackAddr (s.sp + 1)) s

/-! ### Taking an interrupt, and reset -/

/-- The vectors (20_memory.md R54). -/
def nmiVector : Word := 0xFFFA
def resetVector : Word := 0xFFFC
def irqVector : Word := 0xFFFE

/-- `InterruptSequence(vec)` (60_exceptions.md R157), the one trap entry of BRK, IRQ and NMI: push PC high, PC low and
SR, then set I if `P_INTERRUPT_SETS_I`, then load PC from the vector. The spec has no return from it (R162). -/
def interruptSequence (vec : Word) (s : State) : State :=
  let s1 := push (highByte s.pc) s
  let s2 := push (lowByte s.pc) s1
  let s3 := push s.sr s2
  let s4 := if s.cfg.interruptSetsI then setFlag bitI true s3 else s3
  setPC (readWord vec s4) s4

/-- The BRK path (60_exceptions.md R160, 45_control_system.md R143): B is set before the pushes (D14). -/
def brkSequence (s : State) : State := interruptSequence irqVector (setFlag bitB true s)

/-- `Reset()` (70_reset_and_hazards.md R170, 10_state.md R38). L becomes a free value (U4; log 3). -/
def resetSequence (s : State) : State :=
  { s with
    pc := readWord resetVector s
    sp := 0xFD
    sr := 0x20
    a := 0x00
    x := 0x00
    y := 0x00
    loc := Config.freeLoc s.freeCount
    freeCount := s.freeCount + 1 }

/-- What a step does with an execution that ended in `raise` (60_exceptions.md R153): every state element but RS gets
the value it had when the step began (log 2). -/
def settle (start : State) : Host.Outcome State Fault Refusal → Host.Outcome State Fault Refusal
  | .next t =>
    match t.rs with
    | .faulted f => .next (raise f start)
    | .running => .next t
    | .halted _ => .next t
  | .fault f => .fault f
  | .refused r => .refused r

end Sys2Proof.Machine
end

