-- ==== Sys2Proof/Machine/Operands.lean ====
section
/-! DEFINITION. The address-mode sequencer (30_encoding.md R61) and the fetch of an instruction's bytes (R62, R63,
R70, R71). -/
namespace Sys2Proof.Machine

/-! ### Effective addresses -/

/-- Zero page: the operand byte zero-extended (30_encoding.md R61, R64). -/
def zeroPageAddr (zp : Byte) : Word := zp.zeroExtend 16

/-- Where the high byte of JMP (ind)'s target is read (45_control_system.md R141): the pointer's own page under
`P_JMP_IND_PAGE_WRAP`, else the checked increment. -/
def pointerHighAddr (ptr : Word) (s : State) : Except Fault Word :=
  if s.cfg.jmpIndPageWrap then .ok ((ptr &&& 0xFF00) ||| ((ptr + 1) &&& 0x00FF)) else nextAddr ptr s

/-- The target word of JMP (ind). -/
def pointerTarget (ptr : Word) (s : State) : Except Fault Word :=
  match pointerHighAddr ptr s with
  | .ok hi => .ok (wordOf (memRead ptr s) (memRead hi s))
  | .error f => .error f

/-! ### Fetch -/

/-- `FetchByte()` (30_encoding.md R62): the byte at PC, and PC + 1. -/
def fetchByte (s : State) : Except Fault (Byte × State) :=
  match nextAddr s.pc s with
  | .ok pc' => .ok (memRead s.pc s, setPC pc' s)
  | .error f => .error f

/-- `FetchWord()` (30_encoding.md R63): low byte first. -/
def fetchWord (s : State) : Except Fault (Word × State) :=
  match fetchByte s with
  | .error f => .error f
  | .ok (lo, s1) =>
    match fetchByte s1 with
    | .error f => .error f
    | .ok (hi, s2) => .ok (wordOf lo hi, s2)

/-- What the fetch of one instruction brings. -/
inductive Fetched
  | instr (i : Instr)            -- a decoded instruction, its operand bytes consumed
  | unrecognized (opcode : Byte) -- a byte with no row; no operand byte consumed (30_encoding.md R68)
  deriving DecidableEq, Repr

/-- Fetch the operand bytes a handler asks for, in address order (30_encoding.md R71). -/
def fetchOperands (h : Handler) (s : State) : Except Fault (Fetched × State) :=
  match h with
  | .implied i => .ok (.instr i, s)
  | .byte mk =>
    match fetchByte s with
    | .ok (b, s1) => .ok (.instr (mk b), s1)
    | .error f => .error f
  | .word mk =>
    match fetchWord s with
    | .ok (w, s1) => .ok (.instr (mk w), s1)
    | .error f => .error f

/-- Fetch and decode the instruction at PC: the opcode byte, the dispatch, the operand bytes (30_encoding.md R70). -/
def fetchInstr (s : State) : Except Fault (Fetched × State) :=
  match fetchByte s with
  | .error f => .error f
  | .ok (op, s1) =>
    match dispatch s.cfg op with
    | some h => fetchOperands h s1
    | none => .ok (.unrecognized op, s1)

/-- One step of a running machine (30_encoding.md R70): latch L, fetch, execute or report. `execute` is exec; it is
passed in because this file stands before the dispatch. A fetch that overflows, or an execution that raises, leaves
everything but RS as it was (60_exceptions.md R153). -/
def runStep (execute : Instr → State → Host.Outcome State Fault Refusal) (s : State) :
    Host.Outcome State Fault Refusal :=
  match fetchInstr { s with loc := s.pc } with
  | .error f => .next (raise f s)
  | .ok (.instr i, s1) => settle s (execute i s1)
  | .ok (.unrecognized op, s1) => .next (emit (.badOpcode s1.loc op) s1)

end Sys2Proof.Machine
end

