-- ==== Sys2Proof/Machine/Arithmetic.lean ====
section
/-! DEFINITION. ADC and ASL (42_arithmetic.md R100-R103), through the ALU of 40_flag_algebra.md R86. -/
namespace Sys2Proof.Machine

/-- Put an ALU result in A, with C, Z and N from it. -/
def aluToA (r : AluResult) (s : State) : State := setZN r.res (setSR (putCarry r.cout s.sr) (setA r.res s))

/-- ADC of the byte `m` (R100): C is added only under `P_ADC_CARRY_IN`; V and D play no part. -/
def adc (m : Byte) (s : State) : State := aluToA (alu s.cfg.adcCarryIn .add s.a m (getBit s.sr bitC)) s

/-- ADC #imm (R100). -/
def execAdcImm (imm : Byte) (s : State) : Host.Outcome State Fault Refusal := .next (adc imm s)

/-- ADC zp (R101). -/
def execAdcZp (zp : Byte) (s : State) : Host.Outcome State Fault Refusal :=
  .next (adc (memRead (zeroPageAddr zp) s) s)

/-- ADC abs (R102). -/
def execAdcAbs (addr : Word) (s : State) : Host.Outcome State Fault Refusal := .next (adc (memRead addr s) s)

/-- ASL A (R103). -/
def execAslA (s : State) : Host.Outcome State Fault Refusal :=
  .next (aluToA (alu s.cfg.adcCarryIn .shl s.a 0x00 false) s)

end Sys2Proof.Machine
end

