-- ==== Sys2Proof/Machine/Control.lean ====
section
/-! DEFINITION. Jumps, BRK, NOP, and the diagnostic extension PRINT and EXIT (45_control_system.md R140-R147). -/
namespace Sys2Proof.Machine

/-- JMP abs (R140). -/
def execJmpAbs (addr : Word) (s : State) : Host.Outcome State Fault Refusal := .next (setPC addr s)

/-- JMP (ind) (R141): the target is the word in memory at the pointer; the pointer's increment may overflow. -/
def execJmpInd (ptr : Word) (s : State) : Host.Outcome State Fault Refusal :=
  match pointerTarget ptr s with
  | .ok target => .next (setPC target s)
  | .error f => .next (raise f s)

/-- BRK (R143): B, the padding skip of `P_BRK_SKIPS_PADDING`, then the interrupt sequence at the IRQ/BRK vector. -/
def execBrk (s : State) : Host.Outcome State Fault Refusal :=
  if s.cfg.brkSkipsPadding then
    match nextAddr s.pc s with
    | .ok pc' => .next (brkSequence (setPC pc' s))
    | .error f => .next (raise f s)
  else .next (brkSequence s)

/-- NOP (R144). -/
def execNop (s : State) : Host.Outcome State Fault Refusal := .next s

/-- PRINT addr (R146). -/
def execPrint (addr : Word) (s : State) : Host.Outcome State Fault Refusal :=
  .next (emit (.print addr (memRead addr s)) s)

/-- EXIT (R147): the status byte, or 0x00 in the implied form. -/
def execExit (status : Option Byte) (s : State) : Host.Outcome State Fault Refusal :=
  .next (halt (status.getD 0x00) s)

end Sys2Proof.Machine
end

