-- ==== Sys2Proof/Machine/FlagControl.lean ====
section
/-! DEFINITION. Flag control (44_stack_flags.md R131-R137): one named bit of SR, and no other. -/
namespace Sys2Proof.Machine

/-- CLC (R131). -/
def execClc (s : State) : Host.Outcome State Fault Refusal := .next (setFlag bitC false s)

/-- SEC (R132). -/
def execSec (s : State) : Host.Outcome State Fault Refusal := .next (setFlag bitC true s)

/-- CLI (R133). -/
def execCli (s : State) : Host.Outcome State Fault Refusal := .next (setFlag bitI false s)

/-- SEI (R134). -/
def execSei (s : State) : Host.Outcome State Fault Refusal := .next (setFlag bitI true s)

/-- CLV (R135). -/
def execClv (s : State) : Host.Outcome State Fault Refusal := .next (setFlag bitV false s)

/-- CLD (R136). -/
def execCld (s : State) : Host.Outcome State Fault Refusal := .next (setFlag bitD false s)

/-- SED (R137). -/
def execSed (s : State) : Host.Outcome State Fault Refusal := .next (setFlag bitD true s)

end Sys2Proof.Machine
end

