-- ==== Sys2Proof/Machine/LoadStore.lean ====
section
/-! DEFINITION. LDA and the stores (41_load_store.md R90-R95). Each meaning runs after the operand bytes are fetched
(30_encoding.md R71; log 10): PC is already past the instruction. -/
namespace Sys2Proof.Machine

/-- LDA #imm (R90). -/
def execLdaImm (imm : Byte) (s : State) : Host.Outcome State Fault Refusal :=
  let s1 := setA imm s
  .next (if s.cfg.ldaSetsZN then setZN imm s1 else s1)

/-- STA zp (R92). -/
def execStaZp (zp : Byte) (s : State) : Host.Outcome State Fault Refusal :=
  .next (memWrite (zeroPageAddr zp) s.a .unpriv s)

/-- STA abs (R93). -/
def execStaAbs (addr : Word) (s : State) : Host.Outcome State Fault Refusal :=
  .next (memWrite addr s.a .unpriv s)

/-- STX zp (R94). -/
def execStxZp (zp : Byte) (s : State) : Host.Outcome State Fault Refusal :=
  .next (memWrite (zeroPageAddr zp) s.x .unpriv s)

/-- STY zp (R95). -/
def execStyZp (zp : Byte) (s : State) : Host.Outcome State Fault Refusal :=
  .next (memWrite (zeroPageAddr zp) s.y .unpriv s)

end Sys2Proof.Machine
end

