-- ==== Sys2Proof/Machine/Stack.lean ====
section
/-! DEFINITION. Push and pull of A and SR (44_stack_flags.md R127-R130). -/
namespace Sys2Proof.Machine

/-- PHA (R127). -/
def execPha (s : State) : Host.Outcome State Fault Refusal := .next (push s.a s)

/-- PHP (R128): SR exactly as stored. -/
def execPhp (s : State) : Host.Outcome State Fault Refusal := .next (push s.sr s)

/-- PLA (R129). -/
def execPla (s : State) : Host.Outcome State Fault Refusal :=
  let s1 := setA (pullByte s) (pullSP s)
  .next (if s.cfg.plaSetsZN then setZN (pullByte s) s1 else s1)

/-- PLP (R130): the pulled byte with bit 5 forced to 1. -/
def execPlp (s : State) : Host.Outcome State Fault Refusal := .next (setSR (pullByte s ||| 0x20) (pullSP s))

end Sys2Proof.Machine
end

