-- ==== Sys2Proof/Machine/Transfer.lean ====
section
/-! DEFINITION. Transfers, increments and decrements (43_transfer_incdec.md R111-R120). -/
namespace Sys2Proof.Machine

/-- TAX (R111). -/
def execTax (s : State) : Host.Outcome State Fault Refusal := .next (setZNFor .tax s.a (setX s.a s))

/-- TXA (R112). -/
def execTxa (s : State) : Host.Outcome State Fault Refusal := .next (setZNFor .txa s.x (setA s.x s))

/-- TAY (R113). -/
def execTay (s : State) : Host.Outcome State Fault Refusal := .next (setZNFor .tay s.a (setY s.a s))

/-- TYA (R114). -/
def execTya (s : State) : Host.Outcome State Fault Refusal := .next (setZNFor .tya s.y (setA s.y s))

/-- TSX (R115): a pull into X, or a copy of SP, by `P_TSX_TXS_MODE`. -/
def execTsx (s : State) : Host.Outcome State Fault Refusal :=
  match s.cfg.tsxTxsMode with
  | .stackPath => .next (setZNFor .tsx (pullByte s) (setX (pullByte s) (pullSP s)))
  | .direct => .next (setZNFor .tsx s.sp (setX s.sp s))

/-- TXS (R116): a push of X, or a copy to SP, by `P_TSX_TXS_MODE`. No flag changes. -/
def execTxs (s : State) : Host.Outcome State Fault Refusal :=
  match s.cfg.tsxTxsMode with
  | .stackPath => .next (push s.x s)
  | .direct => .next (setSP s.x s)

/-- `r + 1` mod 2^8, by the ALU (40_flag_algebra.md R86). -/
def increment (s : State) (r : Byte) : Byte := (alu s.cfg.adcCarryIn .inc r 0x00 false).res

/-- `r - 1` mod 2^8, by the ALU (40_flag_algebra.md R86). -/
def decrement (s : State) (r : Byte) : Byte := (alu s.cfg.adcCarryIn .dec r 0x00 false).res

/-- INX (R117). -/
def execInx (s : State) : Host.Outcome State Fault Refusal :=
  .next (setZNFor .inx (increment s s.x) (setX (increment s s.x) s))

/-- INY (R118). -/
def execIny (s : State) : Host.Outcome State Fault Refusal :=
  .next (setZNFor .iny (increment s s.y) (setY (increment s s.y) s))

/-- DEX (R119). -/
def execDex (s : State) : Host.Outcome State Fault Refusal :=
  .next (setZNFor .dex (decrement s s.x) (setX (decrement s s.x) s))

/-- DEY (R120). -/
def execDey (s : State) : Host.Outcome State Fault Refusal :=
  .next (setZNFor .dey (decrement s s.y) (setY (decrement s s.y) s))

end Sys2Proof.Machine
end

