-- ==== Sys2Proof/Machine/Step.lean ====
section
/-! DEFINITION. The step (30_encoding.md R70, 70_reset_and_hazards.md R176), and the placing of an instruction where
it fetches. -/
namespace Sys2Proof.Machine

/-- `step` (70_reset_and_hazards.md R176): one instruction when RS is Running, else nothing (10_state.md R36). -/
def step (s : State) : Host.Outcome State Fault Refusal :=
  match s.rs with
  | .running => runStep exec s
  | .halted _ => .next s
  | .faulted _ => .next s

/-- `s` with the instruction whose bits are `w` at PC, PC + 1 and PC + 2 (the longest instruction is three bytes) and
RS Running, which the fetch needs. It stands for the host's privileged load of a program (log 9). -/
def State.withFetchWord (s : State) (nbits w : Nat) : State := placeBytes s.pc (tableBytes nbits w) { s with rs := .running }

end Sys2Proof.Machine
end

