-- ==== Sys2Proof/Machine/Interface.lean ====
section
/-! DEFINITION. What the outside world can do to the machine (00_scope.md R13): the host's transactions between whole
steps, the interrupt-vector controller, construction, and the run modes. `step` is `cmd_step`; the others stand beside
it, because the sequence of host commands is an input and not state (10_state.md R39; log 5). -/
namespace Sys2Proof.Machine

/-! ### Commands take effect only while RS is Running (10_state.md R36, U9; log 4) -/

/-- A command's effect, or nothing in a terminal run state. -/
def whileRunning (effect : State → State) (s : State) : State :=
  match s.rs with
  | .running => effect s
  | .halted _ => s
  | .faulted _ => s

/-! ### Memory access (20_memory.md R48-R50) -/

/-- `get(address)` (R48). -/
def hostGet (addr : Word) (s : State) : Byte := memRead addr s

/-- `set(address, value, privileged)` (R49). -/
def hostSet (addr : Word) (v : Byte) (p : Privilege) (s : State) : State := whileRunning (memWrite addr v p) s

/-- The range runs past 0xFFFF. -/
def rangeOverflows (addr : Word) (bytes : List Byte) : Bool := decide (65536 < addr.toNat + bytes.length)

/-- `load_range(address, bytes, privileged)` (R50): byte by byte through `set`; under `P_ADDR_OVERFLOW` = fault a range
past 0xFFFF is refused before any byte is written, with no other effect. -/
def loadRange (addr : Word) (bytes : List Byte) (p : Privilege) (s : State) : State :=
  match s.cfg.addrOverflow with
  | .wrap => writeRange addr bytes p s
  | .fault => if rangeOverflows addr bytes then s else writeRange addr bytes p s

/-- `load_range` as a command. -/
def hostLoadRange (addr : Word) (bytes : List Byte) (p : Privilege) (s : State) : State :=
  whileRunning (loadRange addr bytes p) s

/-! ### The register view (00_scope.md R13, 60_exceptions.md R168) -/

/-- What the `regs` port shows: A, X, Y, SP, PC, SR, RS. -/
structure RegsView where
  a  : Byte
  x  : Byte
  y  : Byte
  sp : Byte
  pc : Word
  sr : Byte
  rs : RunState
  deriving DecidableEq, Repr

/-- `regs`: a read with no side effect. -/
def hostRegs (s : State) : RegsView := ⟨s.a, s.x, s.y, s.sp, s.pc, s.sr, s.rs⟩

/-- The `halted` port: the exit status, once EXIT has run (00_scope.md R13, 45_control_system.md R147). -/
def hostHalted (s : State) : Option Byte :=
  match s.rs with
  | .halted status => some status
  | .running => none
  | .faulted _ => none

/-! ### Interrupts and reset (60_exceptions.md R156-R161, 70_reset_and_hazards.md R172) -/

/-- The kinds of `cmd_int` (D18). OTHER carries the identifier it stands for (log 11). -/
inductive InterruptKind
  | nmi
  | reset
  | irq
  | brk
  | other (id : String)
  deriving DecidableEq, Repr

/-- The interrupt dispatch of a running machine (60_exceptions.md R156). -/
def interruptDispatch (kind : InterruptKind) (s : State) : State :=
  match kind with
  | .nmi => interruptSequence nmiVector s
  | .reset => resetSequence s
  | .irq => if s.cfg.irqMaskedByI && getBit s.sr bitI then s else interruptSequence irqVector s
  | .brk => brkSequence s
  | .other id => emit (.badInterrupt id) s

/-- `cmd_int(kind)`. -/
def hostInterrupt (kind : InterruptKind) (s : State) : State := whileRunning (interruptDispatch kind) s

/-- `cmd_reset` (70_reset_and_hazards.md R172). -/
def hostReset (s : State) : State := whileRunning resetSequence s

/-! ### Run modes (70_reset_and_hazards.md R176-R178) -/

/-- `run_for(n)` (R177): n steps, or fewer if RS leaves Running. -/
def runFor : Nat → State → Host.Outcome State Fault Refusal
  | 0, s => .next s
  | n + 1, s =>
    match s.rs with
    | .running =>
      match step s with
      | .next t => runFor n t
      | .fault f => .fault f
      | .refused r => .refused r
    | .halted _ => .next s
    | .faulted _ => .next s

/-- How a fuel-bounded `run_to_end` ends (93_implementation_defined.md U10; log 15). -/
inductive RunEnd
  | stopped (s : State)    -- PC = 0xFFFF, or RS left Running
  | outOfFuel (s : State)  -- the fuel was used up first
  deriving DecidableEq, Repr

/-- `run_to_end` stops here: its test before every step (R178). -/
def runStops (s : State) : Bool := s.rs != .running || s.pc == 0xFFFF

/-- `run_to_end` (R178) with at most `fuel` steps. -/
def runToEnd : Nat → State → Host.Outcome RunEnd Fault Refusal
  | 0, s => if runStops s then .next (.stopped s) else .next (.outOfFuel s)
  | fuel + 1, s =>
    if runStops s then .next (.stopped s)
    else
      match step s with
      | .next t => runToEnd fuel t
      | .fault f => .fault f
      | .refused r => .refused r

/-! ### Construction (20_memory.md R47, 70_reset_and_hazards.md R171) -/

/-- The memory cells of an image placed at `addr`. -/
def imageCells : Nat → List Byte → Memory
  | _, [] => []
  | addr, b :: bs => if b = Memory.unlisted then imageCells (addr + 1) bs else (addr, b) :: imageCells (addr + 1) bs

/-- A host write before the processor exists: `load_range`, or `set` as a range of one byte. -/
structure HostLoad where
  addr  : Word
  bytes : List Byte
  priv  : Privilege
  deriving DecidableEq, Repr

/-- The host loads, in order. -/
def applyLoads : List HostLoad → State → State
  | [], s => s
  | l :: ls, s => applyLoads ls (loadRange l.addr l.bytes l.priv s)

/-- Construction: the memory is zeroed or loaded from the image at 0x0000, the host loads it, then the processor is
created with RS Running and DL empty, and `Reset()` runs. An event of a load before that is in no processor's DL
(log 8). A configuration R69 rejects, and an image of more than 65,536 bytes, are refused by name. -/
def construct (c : Config) (image : List Byte) (loads : List HostLoad) : Host.Outcome State Fault Refusal :=
  if c.wf = false then .refused .configurationRefused
  else if 65536 < image.length then .refused .imageTooLong
  else
    let loaded := applyLoads loads { State.reset with cfg := c, mem := imageCells 0 image }
    .next (resetSequence { State.reset with cfg := c, mem := loaded.mem })

/-! ### One transaction -/

/-- The host's commands that may change the state (00_scope.md R13). -/
inductive Command
  | step
  | reset
  | interrupt (kind : InterruptKind)
  | set (addr : Word) (value : Byte) (p : Privilege)
  | loadRange (addr : Word) (bytes : List Byte) (p : Privilege)
  | runFor (n : Nat)
  deriving DecidableEq, Repr

/-- One whole transaction. -/
def transact (cmd : Command) (s : State) : Host.Outcome State Fault Refusal :=
  match cmd with
  | .step => step s
  | .reset => .next (hostReset s)
  | .interrupt kind => .next (hostInterrupt kind s)
  | .set addr v p => .next (hostSet addr v p s)
  | .loadRange addr bytes p => .next (hostLoadRange addr bytes p s)
  | .runFor n => runFor n s

end Sys2Proof.Machine
end

