-- ==== Sys2Proof/Safety.lean ====
section
/-! DEFINITION. What counts as a sound state and a safe run, in the terms the statements use. -/
namespace Sys2Proof.Machine

/-- The invariant of the machine: memory keeps its canonical form, and bit 5 of SR reads as 1 in every reachable state
(10_state.md R31). -/
def State.inv (s : State) : Bool := s.mem.wf && getBit s.sr bitUnused

/-- The machine is in a terminal run state (10_state.md R36). -/
def State.terminal (s : State) : Bool := s.rs != .running

/-- The run has not ended in a fault; the faulted state is never a successful end (60_exceptions.md R153). -/
def State.unfaulted (s : State) : Bool :=
  match s.rs with
  | .running => true
  | .halted _ => true
  | .faulted _ => false

/-- A safe outcome: a next state that meets the invariant and is not faulted. -/
def Safe (o : Host.Outcome State Fault Refusal) : Prop := ∃ t, o = .next t ∧ t.inv = true ∧ t.unfaulted = true

/-! ### The terms of the statements about a step -/

/-- The three bytes at PC, PC + 1 and PC + 2 (16-bit): every instruction lies in a front part of them. -/
def codeBytes (s : State) : List Byte := [memRead s.pc s, memRead (s.pc + 1) s, memRead (s.pc + 2) s]

/-- Fetching `n` bytes from PC passes 0xFFFF where that is a fault (00_scope.md R19, 30_encoding.md R62). -/
def fetchOverflows (n : Nat) (s : State) : Bool :=
  decide (s.cfg.addrOverflow = .fault) && decide (65536 ≤ s.pc.toNat + n)

/-- The state in which an instruction of `n` bytes executes: L latched, PC past the instruction (30_encoding.md R70,
R71). -/
def fetchedState (n : Nat) (s : State) : State := { s with loc := s.pc, pc := s.pc + BitVec.ofNat 16 n }

end Sys2Proof.Machine
end

