-- ==== Sys2Proof/Certificates/Slice0/Obligations.lean ====
section
/-! DEFINITION. The statements for the provers. They come from the numbered rules of spec/. A register, flag or byte
after an instruction is given in the spec's own arithmetic (numbers, bits, addresses), not by the model's operations. -/

namespace Sys2Proof.Says

open Sys2Proof.Machine

/-! ### Terms the statements share -/

/-- Bit `n` of a byte, as the spec numbers them. -/
def bit (v : Byte) (n : Nat) : Bool := v.getLsbD n

/-- `new` differs from `old` in no bit but the listed ones. -/
def OnlyBits (bits : List Nat) (old new : Byte) : Prop := ∀ n, n < 8 → n ∉ bits → bit new n = bit old n

/-- SetZN(v) took `old` to `new`: Z iff v is zero, N is bit 7 of v, no other bit changes (40_flag_algebra.md R84). -/
def ZN (v old new : Byte) : Prop :=
  bit new 1 = decide (v.toNat = 0) ∧ bit new 7 = decide (128 ≤ v.toNat) ∧ OnlyBits [1, 7] old new

/-- The byte Z and N are taken from: A after the instruction where P_ZN_FROM_A holds `m`, else the modified
register's new value (40_flag_algebra.md R85). -/
def znSource (c : Config) (m : ZnMnemonic) (aAfter r : Byte) : Byte := if m ∈ c.znFromA then aAfter else r

/-- `new` is `old` with the one byte at `addr` replaced. -/
def OneByte (addr : Nat) (v : Byte) (old new : Memory) : Prop :=
  ∀ a, new.read a = if a = addr then v else old.read a

/-- A push of `v`: the byte at 0x0100 + SP, SP - 1, nothing else (44_stack_flags.md R125). -/
def Pushed (v : Byte) (s t : State) : Prop :=
  t = { s with sp := s.sp - 1, mem := t.mem } ∧ OneByte (0x100 + s.sp.toNat) v s.mem t.mem

/-- The byte a pull gives: at 0x0100 + SP after SP + 1 mod 2^8 (44_stack_flags.md R126). -/
def pulled (s : State) : Byte := s.mem.read (0x100 + (s.sp.toNat + 1) % 256)

/-- What the interrupt sequence at the vector `vec` does to `s` (60_exceptions.md R157): three bytes pushed, SP - 3,
I set if P_INTERRUPT_SETS_I, PC from the vector pair, nothing else. -/
def TookInterrupt (vec : Nat) (s t : State) : Prop :=
  t = { s with sp := s.sp - 3, mem := t.mem, sr := t.sr, pc := t.pc } ∧
  (∀ a, t.mem.read a =
    if a = 0x100 + s.sp.toNat then BitVec.ofNat 8 (s.pc.toNat / 256)
    else if a = 0x100 + (s.sp.toNat + 255) % 256 then BitVec.ofNat 8 (s.pc.toNat % 256)
    else if a = 0x100 + (s.sp.toNat + 254) % 256 then s.sr
    else s.mem.read a) ∧
  bit t.sr 2 = (s.cfg.interruptSetsI || bit s.sr 2) ∧ OnlyBits [2] s.sr t.sr ∧
  t.pc.toNat = (s.mem.read vec).toNat + 256 * (s.mem.read (vec + 1)).toNat

/-- The row of an instruction: its bytes decode to it in every configuration `ok` allows, and a running machine that
has them at PC runs it (30_encoding.md R62, R66, R70, R71): where fetching them does not pass 0xFFFF under
P_ADDR_OVERFLOW = fault, exec runs with L = the old PC and PC past the bytes, and the step gives exec's state. -/
def Executes (ok : Config → Prop) (i : Instr) (bytes : List Byte) : Prop :=
  (∀ c rest, ok c → decode c (bytes ++ rest) = .ok i rest) ∧
  ∀ s rest, ok s.cfg → s.rs = .running → codeBytes s = bytes ++ rest →
    ¬(s.cfg.addrOverflow = .fault ∧ 65536 ≤ s.pc.toNat + bytes.length) →
    ∀ t, exec i { s with loc := s.pc, pc := s.pc + BitVec.ofNat 16 bytes.length } = .next t →
      (∀ f, t.rs ≠ .faulted f) → step s = .next t

/-- Executes, and the faults of the row (60_exceptions.md R153): where fetching the bytes passes 0xFFFF under
P_ADDR_OVERFLOW = fault, or exec ends in Faulted, the step ends with that RS and everything else as it was when the step
began. That such a step answers a next state is the form of the model's answer (log 2). -/
def RunsAs (ok : Config → Prop) (i : Instr) (bytes : List Byte) : Prop :=
  Executes ok i bytes ∧
  ∀ s rest, ok s.cfg → s.rs = .running → codeBytes s = bytes ++ rest →
    (s.cfg.addrOverflow = .fault ∧ 65536 ≤ s.pc.toNat + bytes.length →
      step s = .next { s with rs := .faulted (.addressOverflow 0xFFFF) }) ∧
    (¬(s.cfg.addrOverflow = .fault ∧ 65536 ≤ s.pc.toNat + bytes.length) →
      ∀ t f, exec i { s with loc := s.pc, pc := s.pc + BitVec.ofNat 16 bytes.length } = .next t →
        t.rs = .faulted f → step s = .next { s with rs := .faulted f })

/-- A row of the 34, in every configuration. -/
abbrev Runs (i : Instr) (bytes : List Byte) : Prop := Executes (fun _ => True) i bytes

/-- A row of the 34, in every configuration, with its faults. -/
abbrev RunsOrFaults (i : Instr) (bytes : List Byte) : Prop := RunsAs (fun _ => True) i bytes

/-- The low byte of a word as the spec writes it: `v[7:0]`. -/
abbrev lo (v : Word) : Byte := BitVec.ofNat 8 (v.toNat % 256)

/-- The high byte of a word: `v[15:8]`. -/
abbrev hi (v : Word) : Byte := BitVec.ofNat 8 (v.toNat / 256)

/-- ADC of `m` took `s` to `t` (42_arithmetic.md R100). -/
def Added (m : Byte) (s t : State) : Prop :=
  let sum := s.a.toNat + m.toNat + (if s.cfg.adcCarryIn && bit s.sr 0 then 1 else 0)
  t = { s with a := t.a, sr := t.sr } ∧ t.a.toNat = sum % 256 ∧
  bit t.sr 0 = decide (256 ≤ sum) ∧ bit t.sr 1 = decide (sum % 256 = 0) ∧ bit t.sr 7 = decide (128 ≤ sum % 256) ∧
  OnlyBits [0, 1, 7] s.sr t.sr

/-- A store of `v` to `addr` as an unprivileged write (20_memory.md R44, R45): refused in the stack page and the
ROM/vector region with one event and nothing else, else one byte of memory and nothing else. -/
def Stored (addr : Nat) (v : Byte) (s t : State) : Prop :=
  if (0x100 ≤ addr ∧ addr ≤ 0x1FF) ∨ 0xFF00 ≤ addr then
    t = { s with dl := s.dl ++ [.writeRejected (BitVec.ofNat 16 addr) v] }
  else t = { s with mem := t.mem } ∧ OneByte addr v s.mem t.mem

/-- The flag instruction `i` writes `b` to bit `n` of SR and changes nothing else. -/
def WritesFlag (i : Instr) (n : Nat) (b : Bool) : Prop :=
  ∀ s, ∃ t, exec i s = .next t ∧ t = { s with sr := t.sr } ∧ bit t.sr n = b ∧ OnlyBits [n] s.sr t.sr

end Sys2Proof.Says

open Sys2Proof Sys2Proof.Machine Sys2Proof.Says

/-! ### Encoding -/

/-- Decoding the encoding of an instruction gives it back, with every operand, and leaves the bytes after it
(30_encoding.md R60, R63, R65, R66, R69). -/
def Obligations.DecodeOfEncodeIsInstruction : Prop :=
  ∀ (c : Config) (i : Instr) (rest : List Byte), c.wf = true → i.wf c = true →
    ∃ bytes, encode c i = some bytes ∧ decode c (bytes ++ rest) = .ok i rest

/-- Bytes that decode are the encoding of what they decode to: each instruction has one encoding, as long as R60 says
(30_encoding.md R60, R65, R72). -/
def Obligations.DecodedBytesAreTheEncoding : Prop :=
  ∀ (c : Config) (bytes : List Byte) (i : Instr) (rest : List Byte), decode c bytes = .ok i rest →
    i.wf c = true ∧ ∃ front, encode c i = some front ∧ bytes = front ++ rest ∧ front.length = i.length

/-- There are 34 recognized bytes; without the diagnostic extension they alone are dispatched, and the extension never
changes what they mean (30_encoding.md R66-R69). -/
def Obligations.ThirtyFourOpcodesRecognized : Prop :=
  ((List.range 256).filter (fun n => isTableOpcode (BitVec.ofNat 8 n))).length = 34 ∧
  (∀ (c : Config) (op : Byte), c.diagExt = false → (dispatch c op).isSome = isTableOpcode op) ∧
  (∀ (c c' : Config) (op : Byte), isTableOpcode op = true → dispatch c op = dispatch c' op)

/-- The length of an instruction is a function of its opcode byte alone, in one configuration (30_encoding.md R72). -/
def Obligations.LengthIsFixedByOpcode : Prop :=
  ∀ (c : Config) (op : Byte) (r r' rest rest' : List Byte) (i i' : Instr),
    decode c (op :: r) = .ok i rest → decode c (op :: r') = .ok i' rest' → i.length = i'.length

/-- The spec's own examples of encodings decode to the instructions they stand for, one per family
(30_encoding.md R66, R77; 95_test_vectors.md S8). -/
def Obligations.SpecWordsDecode : Prop :=
  decode Config.defaults [0xA9, 0x03] = .ok (.ldaImm 0x03) [] ∧
  decode Config.defaults [0x85, 0xA3] = .ok (.staZp 0xA3) [] ∧
  decode Config.defaults [0x8D, 0x00, 0x03] = .ok (.staAbs 0x0300) [] ∧
  decode Config.defaults [0x69, 0x07] = .ok (.adcImm 0x07) [] ∧
  decode Config.defaults [0xAA] = .ok .tax [] ∧
  decode Config.defaults [0xE8] = .ok .inx [] ∧
  decode Config.defaults [0x48] = .ok .pha [] ∧
  decode Config.defaults [0x38] = .ok .sec [] ∧
  decode Config.defaults [0x6C, 0x10, 0x00] = .ok (.jmpInd 0x0010) [] ∧
  decode Config.defaults [0x02] = .error (.unrecognized 0x02)

/-! ### The step -/

/-- A step of a running machine runs the decoded instruction: L is the old PC, PC is past the instruction, exec runs,
and an execution that ended in Faulted gives back the state at the step's start with that RS (30_encoding.md R70, R71;
60_exceptions.md R153; that the faulted state is answered as a next state is log 2). -/
def Obligations.StepRunsTheDecodedInstruction : Prop :=
  ∀ (s : State) (i : Instr) (rest : List Byte), s.rs = .running → decode s.cfg (codeBytes s) = .ok i rest →
    fetchOverflows i.length s = false →
    ∀ t, exec i { s with loc := s.pc, pc := s.pc + BitVec.ofNat 16 i.length } = .next t →
      (∀ f, t.rs = .faulted f → step s = .next { s with rs := .faulted f }) ∧
      ((∀ f, t.rs ≠ .faulted f) → step s = .next t)

/-- An unrecognized byte costs one step and one byte of PC, appends BadOpcode with its address and value, and changes
nothing else (30_encoding.md R68). -/
def Obligations.UnrecognizedOpcodeIsReportedAndSkipped : Prop :=
  ∀ (s : State), s.rs = .running → dispatch s.cfg (s.mem.read s.pc.toNat) = none → fetchOverflows 1 s = false →
    step s = .next { s with
      loc := s.pc, pc := s.pc + 1, dl := s.dl ++ [.badOpcode s.pc (s.mem.read s.pc.toNat)] }

/-- Under P_ADDR_OVERFLOW = fault, fetching an instruction byte at 0xFFFF ends the step in
Faulted(AddressOverflow(0xFFFF)) with every other state element as it was; an unrecognized byte at 0xFFFF too
(30_encoding.md R62, 60_exceptions.md R153, R164; the form of the answer is log 2). -/
def Obligations.FetchPastTheTopFaults : Prop :=
  ∀ (s : State), s.rs = .running → s.cfg.addrOverflow = .fault →
    (∀ i rest, decode s.cfg (codeBytes s) = .ok i rest → 65536 ≤ s.pc.toNat + i.length →
      step s = .next { s with rs := .faulted (.addressOverflow 0xFFFF) }) ∧
    (dispatch s.cfg (s.mem.read s.pc.toNat) = none → s.pc = 0xFFFF →
      step s = .next { s with rs := .faulted (.addressOverflow 0xFFFF) })

/-- A step enters Faulted only under P_ADDR_OVERFLOW = fault, with the address 0xFFFF, and then every state element but
RS keeps the value it had (60_exceptions.md R153; the form of the answer is log 2). -/
def Obligations.FaultKeepsEverythingButRunState : Prop :=
  ∀ (s t : State) (f : Fault), s.rs = .running → step s = .next t → t.rs = .faulted f →
    s.cfg.addrOverflow = .fault ∧ f = .addressOverflow 0xFFFF ∧ t = { s with rs := .faulted f }

/-- Halted and Faulted are terminal: no command changes the state afterwards, reset included (10_state.md R36).
That set and load_range are such commands is DEDUCED (log 4). -/
def Obligations.TerminalStatesNeverChange : Prop :=
  ∀ (s : State) (cmd : Command), s.rs ≠ .running → transact cmd s = .next s

/-- Every step of every state answers a next state (30_encoding.md R70; that Faulted is a next state too is log 2). -/
def Obligations.StepAlwaysReturns : Prop := ∀ s : State, ∃ t, step s = .next t

/-- A step keeps the invariant: memory in canonical form (the model's own, log 12) and bit 5 of SR 1 (10_state.md
R31). -/
def Obligations.StepKeepsInvariant : Prop :=
  ∀ s t : State, s.inv = true → step s = .next t → t.inv = true

/-- Every host command keeps the invariant, and the configuration (10_state.md R31, R39; logs 1, 12). -/
def Obligations.CommandsKeepInvariant : Prop :=
  ∀ (cmd : Command) (s t : State), s.inv = true → transact cmd s = .next t → t.inv = true ∧ t.cfg = s.cfg

/-- The invariant holds at reset: memory in canonical form (the model's own, log 12) and bit 5 of SR 1 (10_state.md R31,
R38). -/
def Obligations.ResetMeetsInvariant : Prop := State.reset.inv = true

/-! ### Reset and construction -/

/-- The values after construction with no image (10_state.md R38, 70_reset_and_hazards.md R173). That the state of the
host's interface is this one, but for L and the model's own counter, is log 3. -/
def Obligations.ConstructionGivesPowerOnValues : Prop :=
  ∃ t, construct Config.defaults [] [] = .next t ∧
    t = { State.reset with loc := t.loc, freeCount := t.freeCount } ∧
    State.reset.a = 0x00 ∧ State.reset.x = 0x00 ∧ State.reset.y = 0x00 ∧ State.reset.sp = 0xFD ∧
    State.reset.sr = 0x20 ∧ State.reset.pc = 0x0000 ∧ State.reset.rs = .running ∧ State.reset.dl = [] ∧
    ∀ a, State.reset.mem.read a = 0x00

/-- Construction reads the reset vector that was placed, and the image is in memory from 0x0000 (20_memory.md R47,
70_reset_and_hazards.md R171, R173). That memory is in canonical form is the model's own (log 12), and so is the
configuration as a field of the state (log 1). -/
def Obligations.ConstructionHonoursResetVector : Prop :=
  ∀ (c : Config) (image : List Byte) (v : Word), c.wf = true → image.length ≤ 65536 →
    ∃ t, construct c image [⟨0xFFFC, [lo v, hi v], .priv⟩] = .next t ∧
      t.pc = v ∧ t.sp = 0xFD ∧ t.sr = 0x20 ∧ t.a = 0 ∧ t.x = 0 ∧ t.y = 0 ∧ t.rs = .running ∧ t.dl = [] ∧ t.cfg = c ∧
      t.mem.wf = true ∧
      ∀ a, t.mem.read a = if a = 0xFFFC then lo v else if a = 0xFFFD then hi v else image.getD a 0x00

/-- Construction refuses a configuration whose optional opcodes are absent, equal to each other or equal to a table
byte, and an image longer than 65,536 bytes (30_encoding.md R69, 20_memory.md R47; 93_implementation_defined.md U3, U8;
log 7). -/
def Obligations.ConstructionRefusesCallerErrors : Prop :=
  (∀ (c : Config) (image : List Byte) (loads : List HostLoad), c.diagExt = true →
    (c.exitOpcode = none ∨ c.printOpcode = none ∨ c.exitOpcode = c.printOpcode ∨
      (∃ op, (c.exitOpcode = some op ∨ c.printOpcode = some op) ∧ isTableOpcode op = true)) →
    construct c image loads = .refused .configurationRefused) ∧
  (∀ (c : Config) (image : List Byte) (loads : List HostLoad), c.wf = true → 65536 < image.length →
    construct c image loads = .refused .imageTooLong)

/-- The reset sequence, by either command, while Running: PC from the reset vector, SP, SR, A, X, Y at their power-on
values; memory, DL, RS kept; nothing in a terminal state (70_reset_and_hazards.md R170, R172; 60_exceptions.md R161). L is
any value (U4), and the model's own counter is left open (log 3). -/
def Obligations.ResetRestoresPowerOnValues : Prop :=
  (∀ s : State, s.rs = .running →
    ∃ t, transact .reset s = .next t ∧ transact (.interrupt .reset) s = .next t ∧
      t = { s with
        pc := t.pc, sp := 0xFD, sr := 0x20, a := 0x00, x := 0x00, y := 0x00, loc := t.loc, freeCount := t.freeCount } ∧
      t.pc.toNat = (s.mem.read 0xFFFC).toNat + 256 * (s.mem.read 0xFFFD).toNat) ∧
  (∀ s : State, s.rs ≠ .running → transact .reset s = .next s ∧ transact (.interrupt .reset) s = .next s)

/-! ### Rules of the whole machine -/

/-- No program and no interrupt changes a byte of the ROM/vector region: a step, a run of any length, a reset and an
interrupt request leave 0xFF00-0xFFFF as it was (20_memory.md R45, R46, R55). -/
def Obligations.ProgramsNeverChangeRom : Prop :=
  ∀ (cmd : Command) (s t : State), (cmd = .step ∨ cmd = .reset ∨ (∃ k, cmd = .interrupt k) ∨ ∃ n, cmd = .runFor n) →
    transact cmd s = .next t → ∀ a, 0xFF00 ≤ a → t.mem.read a = s.mem.read a

/-- A step changes the stack page only through a push: PHA, PHP, TXS or BRK (44_stack_flags.md R139). -/
def Obligations.OnlyPushesChangeTheStackPage : Prop :=
  ∀ (s t : State) (a : Nat), step s = .next t → 0x100 ≤ a → a ≤ 0x1FF → t.mem.read a ≠ s.mem.read a →
    s.mem.read s.pc.toNat ∈ ([0x48, 0x08, 0x9A, 0x00] : List Byte)

/-- Only PLP sets V, and only BRK and PLP set B, only PLP clears B (10_state.md R30, R32; 44_stack_flags.md R130). -/
def Obligations.OverflowAndBreakFlagLifetimes : Prop :=
  ∀ s t : State, step s = .next t →
    (bit s.sr 6 = false → bit t.sr 6 = true → s.mem.read s.pc.toNat = 0x28) ∧
    (bit s.sr 4 = true → bit t.sr 4 = false → s.mem.read s.pc.toNat = 0x28) ∧
    (bit s.sr 4 = false → bit t.sr 4 = true → s.mem.read s.pc.toNat = 0x28 ∨ s.mem.read s.pc.toNat = 0x00)

/-- Within one step at most one diagnostic is emitted, and the log only grows (60_exceptions.md R150, R164). The event
is BadOpcode for a byte with no row, WriteRejected for STA abs, or Print. -/
def Obligations.AtMostOneDiagnosticPerStep : Prop :=
  ∀ s t : State, step s = .next t →
    t.dl = s.dl ∨
    (t.dl = s.dl ++ [.badOpcode s.pc (s.mem.read s.pc.toNat)] ∧ dispatch s.cfg (s.mem.read s.pc.toNat) = none) ∨
    (∃ addr, t.dl = s.dl ++ [.writeRejected addr s.a] ∧ s.mem.read s.pc.toNat = 0x8D) ∨
    (∃ addr, t.dl = s.dl ++ [.print addr (s.mem.read addr.toNat)] ∧ s.cfg.diagExt = true)

/-- No program can read the diagnostic log or the latch L: two machines that differ only there make the same step but
for them (10_state.md R35, R37; 60_exceptions.md R151). -/
def Obligations.LogAndLatchAreUnreadable : Prop :=
  ∀ (s t : State) (l : Word) (d : List Event), step s = .next t →
    ∃ new l', t.dl = s.dl ++ new ∧ step { s with loc := l, dl := d } = .next { t with loc := l', dl := d ++ new }

/-- The D flag changes no instruction's result: with D set otherwise, an instruction other than PHP and BRK (which
store SR) gives the same state but for D (44_stack_flags.md R138). -/
def Obligations.DecimalFlagHasNoEffect : Prop :=
  ∀ (i : Instr) (s t : State) (other : Byte), i ≠ .php → i ≠ .brk → OnlyBits [3] s.sr other → exec i s = .next t →
    ∃ t', exec i { s with sr := other } = .next t' ∧ t' = { t with sr := t'.sr } ∧ OnlyBits [3] t.sr t'.sr

/-- Which instructions write which register, PC (beyond the fetch), memory, DL and RS (10_state.md R20, R36, R37;
20_memory.md R44, R46; 45_control_system.md R147; 60_exceptions.md R151, R153): every other instruction leaves it as it
was. No execution writes L (10_state.md R35) or the configuration (10_state.md R39). That the configuration is a field
of the state is log 1, the model's own counter is log 3, and that Faulted is a next state is log 2. -/
def Obligations.OnlyNamedInstructionsWriteEachRegister : Prop :=
  ∀ (i : Instr) (s t : State), exec i s = .next t →
    (t.a = s.a ∨ (∃ v, i = .ldaImm v ∨ i = .adcImm v ∨ i = .adcZp v) ∨ (∃ w, i = .adcAbs w) ∨
      i = .aslA ∨ i = .txa ∨ i = .tya ∨ i = .pla) ∧
    (t.x = s.x ∨ i = .tax ∨ i = .tsx ∨ i = .inx ∨ i = .dex) ∧
    (t.y = s.y ∨ i = .tay ∨ i = .iny ∨ i = .dey) ∧
    (t.sp = s.sp ∨ i = .tsx ∨ i = .txs ∨ i = .pha ∨ i = .php ∨ i = .pla ∨ i = .plp ∨ i = .brk) ∧
    (t.pc = s.pc ∨ (∃ w, i = .jmpAbs w ∨ i = .jmpInd w) ∨ i = .brk) ∧
    ((∀ a, t.mem.read a = s.mem.read a) ∨ (∃ v, i = .staZp v ∨ i = .stxZp v ∨ i = .styZp v) ∨ (∃ w, i = .staAbs w) ∨
      i = .pha ∨ i = .php ∨ i = .txs ∨ i = .brk) ∧
    (t.dl = s.dl ∨ ∃ w, i = .staAbs w ∨ i = .print w) ∧
    (t.rs = s.rs ∨ (∃ st, i = .exit st) ∨
      (s.cfg.addrOverflow = .fault ∧ ((∃ w, i = .jmpInd w) ∨ (i = .brk ∧ s.cfg.brkSkipsPadding = true)))) ∧
    t.loc = s.loc ∧ t.cfg = s.cfg ∧ t.freeCount = s.freeCount

/-- Which instructions write which bit of SR (10_state.md R25's table, R26, R28-R32); every other instruction leaves
the bit as it was, and nothing clears bit 5. -/
def Obligations.OnlyNamedInstructionsWriteEachFlag : Prop :=
  ∀ (i : Instr) (s t : State), exec i s = .next t →
    (bit t.sr 0 = bit s.sr 0 ∨ (∃ v, i = .adcImm v ∨ i = .adcZp v) ∨ (∃ w, i = .adcAbs w) ∨
      i = .aslA ∨ i = .clc ∨ i = .sec ∨ i = .plp) ∧
    (∀ n, n = 1 ∨ n = 7 →
      bit t.sr n = bit s.sr n ∨ ((∃ v, i = .ldaImm v) ∧ s.cfg.ldaSetsZN = true) ∨
      (∃ v, i = .adcImm v ∨ i = .adcZp v) ∨ (∃ w, i = .adcAbs w) ∨ i = .aslA ∨ i = .tax ∨ i = .tay ∨ i = .txa ∨
      i = .tya ∨ i = .tsx ∨ i = .inx ∨ i = .iny ∨ i = .dex ∨ i = .dey ∨ (i = .pla ∧ s.cfg.plaSetsZN = true) ∨
      i = .plp) ∧
    (bit t.sr 2 = bit s.sr 2 ∨ i = .cli ∨ i = .sei ∨ i = .plp ∨ (i = .brk ∧ s.cfg.interruptSetsI = true)) ∧
    (bit t.sr 3 = bit s.sr 3 ∨ i = .cld ∨ i = .sed ∨ i = .plp) ∧
    (bit t.sr 4 = bit s.sr 4 ∨ i = .brk ∨ i = .plp) ∧
    (bit t.sr 5 = bit s.sr 5 ∨ (i = .plp ∧ bit t.sr 5 = true)) ∧
    (bit t.sr 6 = bit s.sr 6 ∨ i = .clv ∨ i = .plp)

/-! ### Bit algebra, ALU, memory, stack -/

/-- The laws of the bit primitives at every width (40_flag_algebra.md R83). -/
def Obligations.BitPrimitiveLaws : Prop :=
  ∀ (w : Nat) (v : BitVec w) (n m : Nat), n < w → m < w → m ≠ n →
    getBit (setBit v n) n = true ∧ getBit (clearBit v n) n = false ∧
    getBit (setBit v n) m = getBit v m ∧ getBit (clearBit v n) m = getBit v m

/-- SetZN writes exactly two bits of SR: Z iff v is 0, N is v[7] (40_flag_algebra.md R84). -/
def Obligations.SetZNWritesExactlyZAndN : Prop :=
  ∀ (v : Byte) (s : State), setZN v s = { s with sr := (setZN v s).sr } ∧ ZN v s.sr (setZN v s).sr

/-- The ALU's table (40_flag_algebra.md R86): result, carry where the op produces one, zero and negative. -/
def Obligations.AluComputesItsTable : Prop :=
  ∀ (carryIn cin : Bool) (a b : Byte) (op : AluOp),
    let r := alu carryIn op a b cin
    let sum := a.toNat + b.toNat + (if carryIn && cin then 1 else 0)
    r.zero = decide (r.res.toNat = 0) ∧ r.neg = decide (128 ≤ r.res.toNat) ∧
    (op = .add → r.res.toNat = sum % 256 ∧ r.cout = some (decide (256 ≤ sum))) ∧
    (op = .shl → r.res.toNat = 2 * a.toNat % 256 ∧ r.cout = some (decide (128 ≤ a.toNat))) ∧
    (op = .inc → r.res.toNat = (a.toNat + 1) % 256 ∧ r.cout = none) ∧
    (op = .dec → r.res.toNat = (a.toNat + 255) % 256 ∧ r.cout = none) ∧
    (op = .pass → r.res = a ∧ r.cout = none)

/-- A write replaces one byte and nothing else, or is refused with one event and nothing else: refused exactly for an
unprivileged write to 0x0100-0x01FF or 0xFF00-0xFFFF (20_memory.md R43, R44, R45). -/
def Obligations.WriteIsAcceptedOrRefused : Prop :=
  ∀ (addr : Word) (v : Byte) (p : Privilege) (s : State),
    (p = .unpriv → Stored addr.toNat v s (memWrite addr v p s)) ∧
    (p = .priv → memWrite addr v p s = { s with mem := (memWrite addr v p s).mem } ∧
      OneByte addr.toNat v s.mem (memWrite addr v p s).mem)

/-- Push writes then decrements, pull increments then reads, and a push followed by a pull gives the byte back and
returns SP (44_stack_flags.md R125, R126; 95_test_vectors.md S7). -/
def Obligations.PushThenPullReturnsByte : Prop :=
  ∀ (v : Byte) (s : State),
    Pushed v s (push v s) ∧
    (∀ u : State, pullByte u = pulled u ∧ pullSP u = { u with sp := u.sp + 1 }) ∧
    pullByte (push v s) = v ∧ (pullSP (push v s)).sp = s.sp

/-! ### Instructions: encoding, completion, result and frame -/

/-- LDA #imm (41_load_store.md R90): A, and Z and N when P_LDA_SETS_ZN; nothing else. -/
def Obligations.LdaLoadsTheImmediate : Prop :=
  ∀ v : Byte, RunsOrFaults (.ldaImm v) [0xA9, v] ∧
    ∀ s, ∃ t, exec (.ldaImm v) s = .next t ∧ t = { s with a := v, sr := t.sr } ∧
      (s.cfg.ldaSetsZN = true → ZN v s.sr t.sr) ∧ (s.cfg.ldaSetsZN = false → t.sr = s.sr)

/-- STA, STX and STY zero page (41_load_store.md R92, R94, R95): exactly the register's value at the zero-page address,
and nowhere else; never refused. -/
def Obligations.ZeroPageStoresWriteOneByte : Prop :=
  ∀ zp : Byte,
    (RunsOrFaults (.staZp zp) [0x85, zp] ∧ RunsOrFaults (.stxZp zp) [0x86, zp] ∧
      RunsOrFaults (.styZp zp) [0x84, zp]) ∧
    ∀ s,
      (∃ t, exec (.staZp zp) s = .next t ∧ t = { s with mem := t.mem } ∧ OneByte zp.toNat s.a s.mem t.mem) ∧
      (∃ t, exec (.stxZp zp) s = .next t ∧ t = { s with mem := t.mem } ∧ OneByte zp.toNat s.x s.mem t.mem) ∧
      (∃ t, exec (.styZp zp) s = .next t ∧ t = { s with mem := t.mem } ∧ OneByte zp.toNat s.y s.mem t.mem)

/-- STA abs (41_load_store.md R93): A at the address, or refused in the protected pages with WriteRejected; nothing
else. -/
def Obligations.StaAbsoluteStoresOrIsRefused : Prop :=
  ∀ addr : Word, RunsOrFaults (.staAbs addr) [0x8D, lo addr, hi addr] ∧
    ∀ s, ∃ t, exec (.staAbs addr) s = .next t ∧ Stored addr.toNat s.a s t

/-- ADC in its three forms (42_arithmetic.md R100-R102, R105): the 16-bit sum, C its bit 8, Z and N from the new A; V,
D and every other bit unchanged. -/
def Obligations.AdcAddsWithCarryOut : Prop :=
  (∀ v : Byte, RunsOrFaults (.adcImm v) [0x69, v] ∧ ∀ s, ∃ t, exec (.adcImm v) s = .next t ∧ Added v s t) ∧
  (∀ zp : Byte, RunsOrFaults (.adcZp zp) [0x65, zp] ∧
    ∀ s, ∃ t, exec (.adcZp zp) s = .next t ∧ Added (s.mem.read zp.toNat) s t) ∧
  (∀ addr : Word, RunsOrFaults (.adcAbs addr) [0x6D, lo addr, hi addr] ∧
    ∀ s, ∃ t, exec (.adcAbs addr) s = .next t ∧ Added (s.mem.read addr.toNat) s t)

/-- ASL A (42_arithmetic.md R103, R106): 2·A mod 256, C the old bit 7, Z and N from the new A; nothing else. -/
def Obligations.AslDoublesTheAccumulator : Prop :=
  Runs .aslA [0x0A] ∧
  ∀ s, ∃ t, exec .aslA s = .next t ∧ t = { s with a := t.a, sr := t.sr } ∧ t.a.toNat = 2 * s.a.toNat % 256 ∧
    bit t.sr 0 = decide (128 ≤ s.a.toNat) ∧ bit t.sr 1 = decide (t.a.toNat = 0) ∧
    bit t.sr 7 = decide (128 ≤ t.a.toNat) ∧ OnlyBits [0, 1, 7] s.sr t.sr

/-- TAX, TXA, TAY, TYA (43_transfer_incdec.md R111-R114): a copy, and Z and N from it; nothing else. -/
def Obligations.TransfersCopyTheRegister : Prop :=
  (Runs .tax [0xAA] ∧ Runs .txa [0x8A] ∧ Runs .tay [0xA8] ∧ Runs .tya [0x98]) ∧
  ∀ s,
    (∃ t, exec .tax s = .next t ∧ t = { s with x := s.a, sr := t.sr } ∧ ZN s.a s.sr t.sr) ∧
    (∃ t, exec .txa s = .next t ∧ t = { s with a := s.x, sr := t.sr } ∧ ZN s.x s.sr t.sr) ∧
    (∃ t, exec .tay s = .next t ∧ t = { s with y := s.a, sr := t.sr } ∧ ZN s.a s.sr t.sr) ∧
    (∃ t, exec .tya s = .next t ∧ t = { s with a := s.y, sr := t.sr } ∧ ZN s.y s.sr t.sr)

/-- TSX (43_transfer_incdec.md R115): a pull into X in stack_path mode, a copy of SP in direct mode; Z and N from X, or
from A where P_ZN_FROM_A holds TSX; nothing else. -/
def Obligations.TsxPullsOrCopies : Prop :=
  Runs .tsx [0xBA] ∧
  ∀ s, ∃ t, exec .tsx s = .next t ∧ ZN (znSource s.cfg .tsx s.a t.x) s.sr t.sr ∧
    (s.cfg.tsxTxsMode = .stackPath → t = { s with x := pulled s, sp := s.sp + 1, sr := t.sr }) ∧
    (s.cfg.tsxTxsMode = .direct → t = { s with x := s.sp, sr := t.sr })

/-- TXS (43_transfer_incdec.md R116): a push of X in stack_path mode, a copy to SP in direct mode; no flag; nothing
else. -/
def Obligations.TxsPushesOrCopies : Prop :=
  Runs .txs [0x9A] ∧
  ∀ s, ∃ t, exec .txs s = .next t ∧
    (s.cfg.tsxTxsMode = .stackPath → Pushed s.x s t) ∧ (s.cfg.tsxTxsMode = .direct → t = { s with sp := s.x })

/-- TXS followed at once by TSX (43_transfer_incdec.md R122, from R115 and R116): X comes back; SP returns in stack_path
mode, and is X in direct mode. Z and N come from X, or from A where P_ZN_FROM_A holds TSX, a clause of R115 and
40_flag_algebra.md R85 and not of R122, whose words are "Z and N set from X0". -/
def Obligations.TxsThenTsxRoundTrip : Prop :=
  ∀ s, ∃ t u, exec .txs s = .next t ∧ exec .tsx t = .next u ∧ u.x = s.x ∧
    (s.cfg.tsxTxsMode = .stackPath → u.sp = s.sp ∧ u.mem.read (0x100 + s.sp.toNat) = s.x) ∧
    (s.cfg.tsxTxsMode = .direct → u.sp = s.x) ∧
    ZN (znSource s.cfg .tsx s.a s.x) s.sr u.sr

/-- INX, INY, DEX, DEY (43_transfer_incdec.md R117-R121): ±1 mod 256, Z and N from the register, or from A where
P_ZN_FROM_A holds the mnemonic; C, V and everything else unchanged. -/
def Obligations.IncrementsAndDecrementsWrap : Prop :=
  (Runs .inx [0xE8] ∧ Runs .iny [0xC8] ∧ Runs .dex [0xCA] ∧ Runs .dey [0x88]) ∧
  ∀ s,
    (∃ t, exec .inx s = .next t ∧ t = { s with x := t.x, sr := t.sr } ∧ t.x.toNat = (s.x.toNat + 1) % 256 ∧
      ZN (znSource s.cfg .inx s.a t.x) s.sr t.sr) ∧
    (∃ t, exec .iny s = .next t ∧ t = { s with y := t.y, sr := t.sr } ∧ t.y.toNat = (s.y.toNat + 1) % 256 ∧
      ZN (znSource s.cfg .iny s.a t.y) s.sr t.sr) ∧
    (∃ t, exec .dex s = .next t ∧ t = { s with x := t.x, sr := t.sr } ∧ t.x.toNat = (s.x.toNat + 255) % 256 ∧
      ZN (znSource s.cfg .dex s.a t.x) s.sr t.sr) ∧
    (∃ t, exec .dey s = .next t ∧ t = { s with y := t.y, sr := t.sr } ∧ t.y.toNat = (s.y.toNat + 255) % 256 ∧
      ZN (znSource s.cfg .dey s.a t.y) s.sr t.sr)

/-- PHA and PHP (44_stack_flags.md R127, R128): a push of A, of SR exactly as stored; nothing else. -/
def Obligations.PhaAndPhpPush : Prop :=
  (Runs .pha [0x48] ∧ Runs .php [0x08]) ∧
  ∀ s, (∃ t, exec .pha s = .next t ∧ Pushed s.a s t) ∧ (∃ t, exec .php s = .next t ∧ Pushed s.sr s t)

/-- PLA (44_stack_flags.md R129): the pulled byte in A, Z and N from it when P_PLA_SETS_ZN; memory and everything else
unchanged. -/
def Obligations.PlaPullsTheAccumulator : Prop :=
  Runs .pla [0x68] ∧
  ∀ s, ∃ t, exec .pla s = .next t ∧ t = { s with a := pulled s, sp := s.sp + 1, sr := t.sr } ∧
    (s.cfg.plaSetsZN = true → ZN (pulled s) s.sr t.sr) ∧ (s.cfg.plaSetsZN = false → t.sr = s.sr)

/-- PLP (44_stack_flags.md R130): every bit of SR from the pulled byte, bit 5 forced to 1; nothing else. -/
def Obligations.PlpPullsTheStatus : Prop :=
  Runs .plp [0x28] ∧
  ∀ s, ∃ t, exec .plp s = .next t ∧ t = { s with sr := t.sr, sp := s.sp + 1 } ∧ bit t.sr 5 = true ∧
    OnlyBits [5] (pulled s) t.sr

/-- CLC, SEC, CLI, SEI, CLV, CLD, SED (44_stack_flags.md R131-R137): one named bit of SR, and nothing else. -/
def Obligations.FlagControlWritesOneBit : Prop :=
  (Runs .clc [0x18] ∧ Runs .sec [0x38] ∧ Runs .cli [0x58] ∧ Runs .sei [0x78] ∧ Runs .clv [0xB8] ∧ Runs .cld [0xD8] ∧
    Runs .sed [0xF8]) ∧
  WritesFlag .clc 0 false ∧ WritesFlag .sec 0 true ∧ WritesFlag .cli 2 false ∧ WritesFlag .sei 2 true ∧
  WritesFlag .clv 6 false ∧ WritesFlag .cld 3 false ∧ WritesFlag .sed 3 true

/-- JMP abs (45_control_system.md R140): PC is the operand; nothing else. -/
def Obligations.JmpAbsoluteSetsPC : Prop :=
  ∀ addr : Word, RunsOrFaults (.jmpAbs addr) [0x4C, lo addr, hi addr] ∧
    ∀ s, exec (.jmpAbs addr) s = .next { s with pc := addr }

/-- JMP (ind) (45_control_system.md R141): PC is the word at the pointer, its high byte from the pointer's own page
under P_JMP_IND_PAGE_WRAP, else from pointer + 1 mod 2^16, which at 0xFFFF faults under P_ADDR_OVERFLOW = fault
(the form of that answer is log 2); nothing else. -/
def Obligations.JmpIndirectReadsThePointer : Prop :=
  ∀ ptr : Word, RunsOrFaults (.jmpInd ptr) [0x6C, lo ptr, hi ptr] ∧
    ∀ s,
      (s.cfg.jmpIndPageWrap = true → ∃ t, exec (.jmpInd ptr) s = .next t ∧ t = { s with pc := t.pc } ∧
        t.pc.toNat = (s.mem.read ptr.toNat).toNat +
          256 * (s.mem.read (ptr.toNat / 256 * 256 + (ptr.toNat + 1) % 256)).toNat) ∧
      (s.cfg.jmpIndPageWrap = false → ptr ≠ 0xFFFF ∨ s.cfg.addrOverflow = .wrap →
        ∃ t, exec (.jmpInd ptr) s = .next t ∧ t = { s with pc := t.pc } ∧
          t.pc.toNat = (s.mem.read ptr.toNat).toNat + 256 * (s.mem.read ((ptr.toNat + 1) % 65536)).toNat) ∧
      (s.cfg.jmpIndPageWrap = false → ptr = 0xFFFF → s.cfg.addrOverflow = .fault →
        exec (.jmpInd ptr) s = .next { s with rs := .faulted (.addressOverflow 0xFFFF) })

/-- BRK (45_control_system.md R143, 60_exceptions.md R157): B set before the pushes, PC past the padding byte under
P_BRK_SKIPS_PADDING, then the interrupt sequence at 0xFFFE; the padding skip at 0xFFFF faults under P_ADDR_OVERFLOW =
fault (the form of that answer is log 2). -/
def Obligations.BrkTakesTheInterruptSequence : Prop :=
  RunsOrFaults .brk [0x00] ∧
  ∀ s : State, ∃ marked : Byte, bit marked 4 = true ∧ OnlyBits [4] s.sr marked ∧
    (s.cfg.brkSkipsPadding = false →
      ∃ t, exec .brk s = .next t ∧ TookInterrupt 0xFFFE { s with sr := marked } t) ∧
    (s.cfg.brkSkipsPadding = true → s.pc ≠ 0xFFFF ∨ s.cfg.addrOverflow = .wrap →
      ∃ t, exec .brk s = .next t ∧ TookInterrupt 0xFFFE { s with sr := marked, pc := s.pc + 1 } t) ∧
    (s.cfg.brkSkipsPadding = true → s.pc = 0xFFFF → s.cfg.addrOverflow = .fault →
      exec .brk s = .next { s with rs := .faulted (.addressOverflow 0xFFFF) })

/-- NOP (45_control_system.md R144): no effect beyond the fetch. -/
def Obligations.NopDoesNothing : Prop := RunsOrFaults .nop [0xEA] ∧ ∀ s, exec .nop s = .next s

/-- PRINT addr (45_control_system.md R146, 30_encoding.md R69): one Print event with the byte at the address; nothing
else. Its byte is P_PRINT_OPCODE, under P_DIAG_EXT. -/
def Obligations.PrintEmitsTheByte : Prop :=
  ∀ (addr : Word) (op : Byte),
    RunsAs (fun c => c.wf = true ∧ c.diagExt = true ∧ c.printOpcode = some op) (.print addr) [op, lo addr, hi addr] ∧
    ∀ s, exec (.print addr) s = .next { s with dl := s.dl ++ [.print addr (s.mem.read addr.toNat)] }

/-- EXIT (45_control_system.md R147, 30_encoding.md R60, R69): RS becomes Halted with the status byte, or with 0x00 in
the implied form; nothing else. Its byte is P_EXIT_OPCODE, under P_DIAG_EXT. -/
def Obligations.ExitHalts : Prop :=
  (∀ (op : Byte),
    RunsAs (fun c => c.wf = true ∧ c.diagExt = true ∧ c.exitOpcode = some op ∧ c.exitFormat = some .implied)
      (.exit none) [op]) ∧
  (∀ (op st : Byte),
    RunsAs (fun c => c.wf = true ∧ c.diagExt = true ∧ c.exitOpcode = some op ∧ c.exitFormat = some .immediate)
      (.exit (some st)) [op, st]) ∧
  ∀ s : State, exec (.exit none) s = .next { s with rs := .halted 0x00 } ∧
    ∀ st : Byte, exec (.exit (some st)) s = .next { s with rs := .halted st }

/-! ### Interrupt requests -/

/-- NMI is never masked, and IRQ is taken unless P_IRQ_MASKED_BY_I and I are set; each runs the interrupt sequence at
its vector; B unchanged (60_exceptions.md R156-R159). -/
def Obligations.NmiAndIrqTakeTheirVectors : Prop :=
  ∀ s : State, s.rs = .running →
    (∃ t, transact (.interrupt .nmi) s = .next t ∧ TookInterrupt 0xFFFA s t) ∧
    (¬(s.cfg.irqMaskedByI = true ∧ bit s.sr 2 = true) →
      ∃ t, transact (.interrupt .irq) s = .next t ∧ TookInterrupt 0xFFFE s t) ∧
    (s.cfg.irqMaskedByI = true → bit s.sr 2 = true → transact (.interrupt .irq) s = .next s)

/-- BRK requested by the host: B set, then the interrupt sequence at 0xFFFE, no padding skipped (60_exceptions.md
R160). -/
def Obligations.HostBrkSetsBreakThenVectors : Prop :=
  ∀ s : State, s.rs = .running →
    ∃ (marked : Byte) (t : State), bit marked 4 = true ∧ OnlyBits [4] s.sr marked ∧
      transact (.interrupt .brk) s = .next t ∧ TookInterrupt 0xFFFE { s with sr := marked } t

/-- A request naming any other identifier appends BadInterrupt and changes nothing else (60_exceptions.md R161, D18;
that the identifier is a string is log 11). -/
def Obligations.UnknownInterruptIsOnlyReported : Prop :=
  ∀ (s : State) (id : String), s.rs = .running →
    transact (.interrupt (.other id)) s = .next { s with dl := s.dl ++ [.badInterrupt id] }

/-! ### Host memory access and run modes -/

/-- Host set is one write with the host's privilege; get reads the byte (20_memory.md R48, R49). -/
def Obligations.HostSetIsOneWrite : Prop :=
  ∀ (s : State) (addr : Word) (v : Byte), s.rs = .running →
    (∃ t, transact (.set addr v .unpriv) s = .next t ∧ Stored addr.toNat v s t) ∧
    (∃ t, transact (.set addr v .priv) s = .next t ∧ t = { s with mem := t.mem } ∧ OneByte addr.toNat v s.mem t.mem ∧
      hostGet addr t = v)

/-- load_range (20_memory.md R50): under fault a range past 0xFFFF has no effect at all; otherwise it is set of the
first byte and then of the rest from addr + 1 mod 2^16. -/
def Obligations.LoadRangeIsByteByByte : Prop :=
  ∀ (s : State) (addr : Word) (p : Privilege), s.rs = .running →
    transact (.loadRange addr [] p) s = .next s ∧
    ∀ (b : Byte) (bs : List Byte),
      (s.cfg.addrOverflow = .fault → 65536 < addr.toNat + (bs.length + 1) →
        transact (.loadRange addr (b :: bs) p) s = .next s) ∧
      (s.cfg.addrOverflow = .wrap ∨ addr.toNat + (bs.length + 1) ≤ 65536 →
        ∃ t, transact (.set addr b p) s = .next t ∧
          transact (.loadRange addr (b :: bs) p) s = transact (.loadRange (addr + 1) bs p) t)

/-- run_for (70_reset_and_hazards.md R177): it always returns; run_for(0) does nothing; run_for(1) is a step; m + n
steps are m steps and then n. -/
def Obligations.RunForIsRepeatedStep : Prop :=
  ∀ (s : State), transact (.runFor 0) s = .next s ∧ transact (.runFor 1) s = step s ∧
    ∀ m n : Nat, ∃ t, runFor m s = .next t ∧ runFor (m + n) s = runFor n t

/-- run_to_end (70_reset_and_hazards.md R178): it stops exactly when PC is 0xFFFF or RS left Running, tested before
every step, the first included; it is a run of some number of steps before which the test never held; more fuel does
not change where it stopped. The fuel is the model's own (log 15). -/
def Obligations.RunToEndStopsAtTheTop : Prop :=
  (∀ (fuel : Nat) (s : State), s.pc = 0xFFFF ∨ s.rs ≠ .running → runToEnd fuel s = .next (.stopped s)) ∧
  (∀ (fuel : Nat) (s t : State), runToEnd fuel s = .next (.stopped t) →
    (t.pc = 0xFFFF ∨ t.rs ≠ .running) ∧
    (∃ n, n ≤ fuel ∧ runFor n s = .next t ∧
      ∀ k u, k < n → runFor k s = .next u → u.pc ≠ 0xFFFF ∧ u.rs = .running) ∧
    ∀ more, runToEnd (fuel + more) s = .next (.stopped t)) ∧
  (∀ (fuel : Nat) (s t : State), runToEnd fuel s = .next (.outOfFuel t) →
    runFor fuel s = .next t ∧ t.pc ≠ 0xFFFF ∧ t.rs = .running) ∧
  (∀ (fuel : Nat) (s : State), ∃ r, runToEnd fuel s = .next r)
end

