-- ==== Sys2Proof/Laws/Decode.lean ====
section
/-! SUPPORT. What the dispatch table gives for each of its bytes, and what the decoder can answer. -/
namespace Sys2Proof

/-! ### Byte order -/

@[simp] theorem wordOf_toNat (lo hi : Byte) : (wordOf lo hi).toNat = lo.toNat + 256 * hi.toNat := by
  have h := lo.isLt
  rw [wordOf, BitVec.toNat_append, ← Nat.shiftLeft_add_eq_or_of_lt h, Nat.shiftLeft_eq]
  omega

@[simp] theorem wordOf_bytes (v : Word) : wordOf (lowByte v) (highByte v) = v := by
  apply BitVec.eq_of_toNat_eq
  have := v.isLt
  simp [lowByte, highByte, Nat.shiftRight_eq_div_pow]
  omega

@[simp] theorem lowByte_toNat (v : Word) : (lowByte v).toNat = v.toNat % 256 := by
  simp [lowByte]

@[simp] theorem highByte_toNat (v : Word) : (highByte v).toNat = v.toNat / 256 := by
  have := v.isLt
  simp [highByte, Nat.shiftRight_eq_div_pow]
  omega

/-! ### The table -/

/-- No two rows of the table share an opcode byte (30_encoding.md R65: each byte gives exactly one outcome). -/
theorem opcodeTable_pairwise_distinct : opcodeTable.Pairwise (fun r r' => r.opcode ≠ r'.opcode) := by decide

/-- A table byte is dispatched to its row in every configuration. -/
theorem dispatch_of_lookup {c : Config} {op : Byte} {h : Handler} (hl : lookupRow op opcodeTable = some h) :
    dispatch c op = some h := by simp [dispatch, hl]

/-- A row with a word operand decodes the little-endian bytes of the word. -/
theorem decode_wordForm {c : Config} {op : Byte} {mk : Word → Instr}
    (h : lookupRow op opcodeTable = some (.word mk)) (v : Word) (rest : List Byte) :
    decode c (wordForm op v ++ rest) = .ok (mk v) rest := by
  simp [wordForm, decode, dispatch_of_lookup h, assemble]

/-- A byte outside the table is left to the diagnostic extension. -/
theorem dispatch_of_not_table {c : Config} {op : Byte} (h : isTableOpcode op = false) :
    dispatch c op = diagHandler c op := by
  simp only [isTableOpcode, Option.isSome_eq_false_iff, Option.isNone_iff_eq_none] at h
  simp [dispatch, h]

/-- The number of operand bytes a handler consumes. -/
def Handler.operandBytes : Handler → Nat
  | .implied _ => 0
  | .byte _ => 1
  | .word _ => 2

/-- A handler whose instruction has the length the handler consumes, whatever the operands. -/
def Handler.lengthAgrees : Handler → Prop
  | .implied i => i.length = 1
  | .byte mk => ∀ b, (mk b).length = 2
  | .word mk => ∀ w, (mk w).length = 3

theorem lookupRow_mem {op : Byte} {rows : List Row} {h : Handler} (hl : lookupRow op rows = some h) :
    ⟨op, h⟩ ∈ rows := by
  induction rows with
  | nil => simp [lookupRow] at hl
  | cons r rows ih =>
    simp only [lookupRow] at hl
    split at hl
    · next e => cases r; simp_all
    · exact List.mem_cons_of_mem _ (ih hl)

theorem opcodeTable_lengthAgrees : ∀ r ∈ opcodeTable, r.handler.lengthAgrees := by
  simp [opcodeTable, loadStoreRows, arithmeticRows, transferRows, incDecRows, stackRows, flagRows, controlRows,
    Handler.lengthAgrees, Instr.length]

/-- What the optional rows can be (30_encoding.md R69). -/
theorem diagHandler_cases {c : Config} {op : Byte} {h : Handler} (hd : diagHandler c op = some h) :
    c.diagExt = true ∧
      ((c.printOpcode = some op ∧ h = .word .print) ∨
       (c.exitOpcode = some op ∧ ∃ f, c.exitFormat = some f ∧ h = exitHandler f)) := by
  unfold diagHandler at hd
  split at hd
  · next hx =>
    split at hd
    · next hp => exact ⟨hx, .inl ⟨hp, by simpa using hd.symm⟩⟩
    · split at hd
      · next he =>
        rw [Option.map_eq_some_iff] at hd
        obtain ⟨f, hf, rfl⟩ := hd
        exact ⟨hx, .inr ⟨he, f, hf, rfl⟩⟩
      · cases hd
  · cases hd

/-- Every handler the dispatch gives consumes as many bytes as its instruction is long. -/
theorem dispatch_lengthAgrees {c : Config} {op : Byte} {h : Handler} (hd : dispatch c op = some h) :
    h.lengthAgrees := by
  unfold dispatch at hd
  split at hd
  · next h' hl => cases hd; exact opcodeTable_lengthAgrees _ (lookupRow_mem hl)
  · obtain ⟨-, ⟨-, rfl⟩ | ⟨-, f, -, rfl⟩⟩ := diagHandler_cases hd
    · intro w; rfl
    · cases f <;> first | rfl | (intro b; rfl)

/-! ### What an answer of the decoder means -/

/-- The three ways operand bytes are assembled. -/
theorem assemble_cases {h : Handler} {bytes rest : List Byte} {i : Instr} (ha : assemble h bytes = .ok i rest) :
    (h = .implied i ∧ bytes = rest) ∨
    (∃ mk b, h = .byte mk ∧ i = mk b ∧ bytes = b :: rest) ∨
    (∃ mk v, h = .word mk ∧ i = mk v ∧ bytes = lowByte v :: highByte v :: rest) := by
  have hlo : ∀ lo hi : Byte, lowByte (wordOf lo hi) = lo := fun lo hi =>
    BitVec.eq_of_toNat_eq (by have := lo.isLt; simp; omega)
  have hhi : ∀ lo hi : Byte, highByte (wordOf lo hi) = hi := fun lo hi =>
    BitVec.eq_of_toNat_eq (by have := lo.isLt; simp; omega)
  cases h with
  | implied j => simp only [assemble, Decoded.ok.injEq] at ha; exact .inl ⟨by rw [ha.1], ha.2⟩
  | byte mk =>
    rcases bytes with _ | ⟨b, bs⟩ <;> simp only [assemble, Decoded.ok.injEq, reduceCtorEq] at ha
    exact .inr (.inl ⟨mk, b, rfl, ha.1.symm, by rw [ha.2]⟩)
  | word mk =>
    rcases bytes with _ | ⟨lo, _ | ⟨hi, bs⟩⟩ <;> simp only [assemble, Decoded.ok.injEq, reduceCtorEq] at ha
    exact .inr (.inr ⟨mk, wordOf lo hi, rfl, ha.1.symm, by rw [hlo, hhi, ha.2]⟩)

/-- The encoder gives back a handler's opcode and operand bytes, for a well-formed instruction. -/
def Handler.encodesAs (c : Config) (op : Byte) : Handler → Prop
  | .implied i => i.wf c = true ∧ encode c i = some [op]
  | .byte mk => ∀ b, (mk b).wf c = true ∧ encode c (mk b) = some [op, b]
  | .word mk => ∀ v, (mk v).wf c = true ∧ encode c (mk v) = some (wordForm op v)

theorem opcodeTable_encodesAs (c : Config) : ∀ r ∈ opcodeTable, r.handler.encodesAs c r.opcode := by
  simp [opcodeTable, loadStoreRows, arithmeticRows, transferRows, incDecRows, stackRows, flagRows, controlRows,
    Handler.encodesAs, Instr.wf, encode]

/-- The encoder is written from the same table the decoder reads (30_encoding.md R66, R69). -/
theorem dispatch_encodesAs {c : Config} {op : Byte} {h : Handler} (hd : dispatch c op = some h) :
    h.encodesAs c op := by
  unfold dispatch at hd
  split at hd
  · next h' hl => cases hd; exact opcodeTable_encodesAs c _ (lookupRow_mem hl)
  · obtain ⟨hx, ⟨hp, rfl⟩ | ⟨he, f, hf, rfl⟩⟩ := diagHandler_cases hd
    · simp [Handler.encodesAs, Instr.wf, encode, hx, hp]
    · cases f <;>
        simp [exitHandler, Handler.encodesAs, Instr.wf, encode, hx, he, hf, ExitFormat.matchesStatus]

end Sys2Proof
end

