-- ==== Sys2Proof/Laws/Flags.lean ====
section
/-! SUPPORT. What each flag operation does to each bit of a status byte. -/
namespace Sys2Proof.Machine

theorem getBit_eq {w : Nat} (v : BitVec w) (n : Nat) : getBit v n = v.getLsbD n := rfl

theorem getLsbD_one_shiftLeft {w : Nat} (n k : Nat) :
    (1#w <<< n).getLsbD k = (decide (k < w) && decide (k = n)) := by
  by_cases hk : k < w <;> by_cases h : k = n <;> simp [BitVec.getLsbD_shiftLeft, hk, h] <;> omega

/-- Bit `k` after bit `n` is written. -/
theorem getLsbD_putBit {w : Nat} (v : BitVec w) (n k : Nat) (b : Bool) (hn : n < w) :
    (putBit v n b).getLsbD k = if k = n then b else v.getLsbD k := by
  have hw : w ≤ k → v.getLsbD k = false := BitVec.getLsbD_of_ge v k
  cases b <;> simp only [putBit, setBit, clearBit, BitVec.getLsbD_or, BitVec.getLsbD_and, BitVec.getLsbD_not,
    getLsbD_one_shiftLeft, if_true, if_false, Bool.false_eq_true] <;> grind

/-- Bit `k` after SetZN: bit 1 is Z, bit 7 is N, no other bit changes (40_flag_algebra.md R84). -/
theorem getLsbD_zeroNegative (v sr : Byte) (k : Nat) :
    (zeroNegative v sr).getLsbD k =
      if k = 7 then v.getLsbD 7 else if k = 1 then (v == 0x00) else sr.getLsbD k := by
  unfold zeroNegative
  rw [getLsbD_putBit _ _ _ _ (by decide), getLsbD_putBit _ _ _ _ (by decide)]
  rfl

/-- Bit `k` after the ALU's carry is put in C. -/
theorem getLsbD_putCarry (cout : Option Bool) (sr : Byte) (k : Nat) :
    (putCarry cout sr).getLsbD k = if k = 0 then cout.getD (sr.getLsbD 0) else sr.getLsbD k := by
  cases cout with
  | none => simp only [putCarry, Option.getD_none]; split <;> simp_all
  | some b => exact getLsbD_putBit sr 0 k b (by decide)

/-- The wide sum never wraps (40_flag_algebra.md R87). -/
theorem wideSum_toNat (a b : Byte) (cin : Bool) :
    (wideSum a b cin).toNat = a.toNat + b.toNat + cin.toNat := by
  have ha := a.isLt
  have hb := b.isLt
  cases cin <;> simp [wideSum, BitVec.toNat_add] <;> omega

/-- Bit 8 of the wide sum: the sum does not fit a byte. -/
theorem wideSum_bit8 (a b : Byte) (cin : Bool) :
    getBit (wideSum a b cin) 8 = decide (256 ≤ a.toNat + b.toNat + cin.toNat) := by
  have h := wideSum_toNat a b cin
  have ha := a.isLt
  have hb := b.isLt
  have hc : cin.toNat ≤ 1 := by cases cin <;> decide
  simp only [getBit, BitVec.getLsbD, h, Nat.testBit_eq_decide_div_mod_eq]
  congr 1
  apply propext
  omega

/-- The truncated sum. -/
theorem wideSum_low (a b : Byte) (cin : Bool) :
    ((wideSum a b cin).setWidth 8).toNat = (a.toNat + b.toNat + cin.toNat) % 256 := by
  rw [BitVec.toNat_setWidth, wideSum_toNat]

/-- Bit 7 of a byte: its number is at least 128. -/
theorem byte_bit7 (v : Byte) : v.getLsbD 7 = decide (128 ≤ v.toNat) := by
  have hv := v.isLt
  simp only [BitVec.getLsbD, Nat.testBit_eq_decide_div_mod_eq]
  congr 1
  apply propext
  omega

/-- SHL's result, as a number: twice the byte, modulo 256 (42_arithmetic.md R106). -/
theorem shl_toNat (a : Byte) : ((a <<< 1) &&& 0xFE).toNat = (2 * a.toNat) % 256 := by
  revert a; decide

end Sys2Proof.Machine
end

