-- ==== Sys2Proof/Laws/Memory.lean ====
section
/-! SUPPORT. Memory: what a read after a write gives, and that every operation keeps the canonical form. -/
namespace Sys2Proof.Machine

@[simp] theorem Memory.read_nil (addr : Nat) : Memory.read [] addr = Memory.unlisted := rfl

theorem Memory.read_insert (m : Memory) (addr b : Nat) (v : Byte) (h : ∀ c ∈ m, c.1 ≠ addr) :
    Memory.read (Memory.insert m addr v) b = if b = addr then v else Memory.read m b := by
  induction m with
  | nil => simp only [Memory.insert, Memory.read, eq_comm]
  | cons c m ih =>
    obtain ⟨k, w⟩ := c
    have hk : k ≠ addr := h (k, w) (by simp)
    have hm := ih (fun c hc => h c (List.mem_cons_of_mem _ hc))
    simp only [Memory.insert]
    split <;> simp only [Memory.read, hm] <;> grind

theorem Memory.read_erase (m : Memory) (addr b : Nat) :
    Memory.read (Memory.erase m addr) b = if b = addr then Memory.unlisted else Memory.read m b := by
  induction m with
  | nil => simp [Memory.erase]
  | cons c m ih =>
    obtain ⟨k, w⟩ := c
    simp only [Memory.erase] at ih
    by_cases hk : k = addr
    · simp only [Memory.erase, List.filter, hk, bne_self_eq_false, ih, Memory.read]
      grind
    · have : (k != addr) = true := by simpa using hk
      simp only [Memory.erase, List.filter, this, Memory.read, ih]
      grind

/-- The one law of a write: the byte written at its address, the old byte everywhere else (20_memory.md R44, R56). -/
@[simp] theorem Memory.read_write (m : Memory) (addr b : Nat) (v : Byte) :
    Memory.read (Memory.write m addr v) b = if b = addr then v else Memory.read m b := by
  unfold Memory.write
  split
  · next hv => rw [Memory.read_erase, hv]
  · rw [Memory.read_insert _ _ _ _ (by simp [Memory.erase]), Memory.read_erase]
    split <;> simp_all

/-! ### The canonical form -/

theorem Memory.wfFrom_mono {m : Memory} {lo lo' : Nat} (h : lo' ≤ lo) (hm : Memory.wfFrom lo m = true) :
    Memory.wfFrom lo' m = true := by
  cases m with
  | nil => rfl
  | cons c m =>
    simp only [Memory.wfFrom, Bool.and_eq_true, decide_eq_true_eq] at hm ⊢
    exact ⟨⟨⟨by omega, hm.1.1.2⟩, hm.1.2⟩, hm.2⟩

theorem Memory.wfFrom_erase {m : Memory} {lo : Nat} (addr : Nat) (hm : Memory.wfFrom lo m = true) :
    Memory.wfFrom lo (Memory.erase m addr) = true := by
  induction m generalizing lo with
  | nil => rfl
  | cons c m ih =>
    obtain ⟨k, w⟩ := c
    simp only [Memory.wfFrom, Bool.and_eq_true, decide_eq_true_eq] at hm
    have ht := ih hm.2
    simp only [Memory.erase] at ht ⊢
    by_cases hk : k = addr
    · subst hk
      simp only [List.filter, bne_self_eq_false]
      exact Memory.wfFrom_mono (by omega) ht
    · have : (k != addr) = true := by simpa using hk
      simp only [List.filter, this, Memory.wfFrom, Bool.and_eq_true, decide_eq_true_eq]
      exact ⟨hm.1, ht⟩

theorem Memory.wfFrom_insert {m : Memory} {lo addr : Nat} {v : Byte} (hm : Memory.wfFrom lo m = true)
    (hne : ∀ c ∈ m, c.1 ≠ addr) (hlo : lo ≤ addr) (hhi : addr < 65536) (hv : v ≠ Memory.unlisted) :
    Memory.wfFrom lo (Memory.insert m addr v) = true := by
  induction m generalizing lo with
  | nil => simp [Memory.insert, Memory.wfFrom, *]
  | cons c m ih =>
    obtain ⟨k, w⟩ := c
    have hk : k ≠ addr := hne (k, w) (by simp)
    simp only [Memory.wfFrom, Bool.and_eq_true, decide_eq_true_eq] at hm
    simp only [Memory.insert]
    split
    · simp only [Memory.wfFrom, Bool.and_eq_true, decide_eq_true_eq, bne_iff_ne]
      refine ⟨⟨⟨hlo, hhi⟩, hv⟩, ⟨⟨by omega, hm.1.1.2⟩, ?_⟩, hm.2⟩
      simpa using hm.1.2
    · simp only [Memory.wfFrom, Bool.and_eq_true, decide_eq_true_eq]
      exact ⟨hm.1, ih hm.2 (fun c hc => hne c (List.mem_cons_of_mem _ hc)) (by omega)⟩

/-- A write below 65,536 keeps the canonical form. -/
theorem Memory.wf_write {m : Memory} (addr : Nat) (v : Byte) (hm : m.wf = true) (h : addr < 65536) :
    (Memory.write m addr v).wf = true := by
  unfold Memory.write
  split
  · exact Memory.wfFrom_erase addr hm
  · next hv =>
    exact Memory.wfFrom_insert (Memory.wfFrom_erase addr hm) (by simp [Memory.erase]) (by omega) h hv

theorem Memory.wf_write_word {m : Memory} (addr : Word) (v : Byte) (hm : m.wf = true) :
    (Memory.write m addr.toNat v).wf = true :=
  Memory.wf_write addr.toNat v hm addr.isLt

theorem reset_memory_wf : State.reset.mem.wf = true := rfl

end Sys2Proof.Machine
end

