-- ==== Sys2Proof/Laws/State.lean ====
section
/-! SUPPORT. One lemma per field of State per register-level update, each true by rfl, so that no later proof unfolds
a record update. -/
namespace Sys2Proof.Machine

variable (s : State)

@[simp] theorem setA_a (v : Byte) : (setA v s).a = v := rfl
@[simp] theorem setA_x (v : Byte) : (setA v s).x = s.x := rfl
@[simp] theorem setA_y (v : Byte) : (setA v s).y = s.y := rfl
@[simp] theorem setA_sp (v : Byte) : (setA v s).sp = s.sp := rfl
@[simp] theorem setA_pc (v : Byte) : (setA v s).pc = s.pc := rfl
@[simp] theorem setA_sr (v : Byte) : (setA v s).sr = s.sr := rfl
@[simp] theorem setA_loc (v : Byte) : (setA v s).loc = s.loc := rfl
@[simp] theorem setA_rs (v : Byte) : (setA v s).rs = s.rs := rfl
@[simp] theorem setA_dl (v : Byte) : (setA v s).dl = s.dl := rfl
@[simp] theorem setA_mem (v : Byte) : (setA v s).mem = s.mem := rfl
@[simp] theorem setA_cfg (v : Byte) : (setA v s).cfg = s.cfg := rfl
@[simp] theorem setA_freeCount (v : Byte) : (setA v s).freeCount = s.freeCount := rfl

@[simp] theorem setX_a (v : Byte) : (setX v s).a = s.a := rfl
@[simp] theorem setX_x (v : Byte) : (setX v s).x = v := rfl
@[simp] theorem setX_y (v : Byte) : (setX v s).y = s.y := rfl
@[simp] theorem setX_sp (v : Byte) : (setX v s).sp = s.sp := rfl
@[simp] theorem setX_pc (v : Byte) : (setX v s).pc = s.pc := rfl
@[simp] theorem setX_sr (v : Byte) : (setX v s).sr = s.sr := rfl
@[simp] theorem setX_loc (v : Byte) : (setX v s).loc = s.loc := rfl
@[simp] theorem setX_rs (v : Byte) : (setX v s).rs = s.rs := rfl
@[simp] theorem setX_dl (v : Byte) : (setX v s).dl = s.dl := rfl
@[simp] theorem setX_mem (v : Byte) : (setX v s).mem = s.mem := rfl
@[simp] theorem setX_cfg (v : Byte) : (setX v s).cfg = s.cfg := rfl
@[simp] theorem setX_freeCount (v : Byte) : (setX v s).freeCount = s.freeCount := rfl

@[simp] theorem setY_a (v : Byte) : (setY v s).a = s.a := rfl
@[simp] theorem setY_x (v : Byte) : (setY v s).x = s.x := rfl
@[simp] theorem setY_y (v : Byte) : (setY v s).y = v := rfl
@[simp] theorem setY_sp (v : Byte) : (setY v s).sp = s.sp := rfl
@[simp] theorem setY_pc (v : Byte) : (setY v s).pc = s.pc := rfl
@[simp] theorem setY_sr (v : Byte) : (setY v s).sr = s.sr := rfl
@[simp] theorem setY_loc (v : Byte) : (setY v s).loc = s.loc := rfl
@[simp] theorem setY_rs (v : Byte) : (setY v s).rs = s.rs := rfl
@[simp] theorem setY_dl (v : Byte) : (setY v s).dl = s.dl := rfl
@[simp] theorem setY_mem (v : Byte) : (setY v s).mem = s.mem := rfl
@[simp] theorem setY_cfg (v : Byte) : (setY v s).cfg = s.cfg := rfl
@[simp] theorem setY_freeCount (v : Byte) : (setY v s).freeCount = s.freeCount := rfl

@[simp] theorem setSP_a (v : Byte) : (setSP v s).a = s.a := rfl
@[simp] theorem setSP_x (v : Byte) : (setSP v s).x = s.x := rfl
@[simp] theorem setSP_y (v : Byte) : (setSP v s).y = s.y := rfl
@[simp] theorem setSP_sp (v : Byte) : (setSP v s).sp = v := rfl
@[simp] theorem setSP_pc (v : Byte) : (setSP v s).pc = s.pc := rfl
@[simp] theorem setSP_sr (v : Byte) : (setSP v s).sr = s.sr := rfl
@[simp] theorem setSP_loc (v : Byte) : (setSP v s).loc = s.loc := rfl
@[simp] theorem setSP_rs (v : Byte) : (setSP v s).rs = s.rs := rfl
@[simp] theorem setSP_dl (v : Byte) : (setSP v s).dl = s.dl := rfl
@[simp] theorem setSP_mem (v : Byte) : (setSP v s).mem = s.mem := rfl
@[simp] theorem setSP_cfg (v : Byte) : (setSP v s).cfg = s.cfg := rfl
@[simp] theorem setSP_freeCount (v : Byte) : (setSP v s).freeCount = s.freeCount := rfl

@[simp] theorem setPC_a (v : Word) : (setPC v s).a = s.a := rfl
@[simp] theorem setPC_x (v : Word) : (setPC v s).x = s.x := rfl
@[simp] theorem setPC_y (v : Word) : (setPC v s).y = s.y := rfl
@[simp] theorem setPC_sp (v : Word) : (setPC v s).sp = s.sp := rfl
@[simp] theorem setPC_pc (v : Word) : (setPC v s).pc = v := rfl
@[simp] theorem setPC_sr (v : Word) : (setPC v s).sr = s.sr := rfl
@[simp] theorem setPC_loc (v : Word) : (setPC v s).loc = s.loc := rfl
@[simp] theorem setPC_rs (v : Word) : (setPC v s).rs = s.rs := rfl
@[simp] theorem setPC_dl (v : Word) : (setPC v s).dl = s.dl := rfl
@[simp] theorem setPC_mem (v : Word) : (setPC v s).mem = s.mem := rfl
@[simp] theorem setPC_cfg (v : Word) : (setPC v s).cfg = s.cfg := rfl
@[simp] theorem setPC_freeCount (v : Word) : (setPC v s).freeCount = s.freeCount := rfl

@[simp] theorem setSR_a (v : Byte) : (setSR v s).a = s.a := rfl
@[simp] theorem setSR_x (v : Byte) : (setSR v s).x = s.x := rfl
@[simp] theorem setSR_y (v : Byte) : (setSR v s).y = s.y := rfl
@[simp] theorem setSR_sp (v : Byte) : (setSR v s).sp = s.sp := rfl
@[simp] theorem setSR_pc (v : Byte) : (setSR v s).pc = s.pc := rfl
@[simp] theorem setSR_sr (v : Byte) : (setSR v s).sr = v := rfl
@[simp] theorem setSR_loc (v : Byte) : (setSR v s).loc = s.loc := rfl
@[simp] theorem setSR_rs (v : Byte) : (setSR v s).rs = s.rs := rfl
@[simp] theorem setSR_dl (v : Byte) : (setSR v s).dl = s.dl := rfl
@[simp] theorem setSR_mem (v : Byte) : (setSR v s).mem = s.mem := rfl
@[simp] theorem setSR_cfg (v : Byte) : (setSR v s).cfg = s.cfg := rfl
@[simp] theorem setSR_freeCount (v : Byte) : (setSR v s).freeCount = s.freeCount := rfl

@[simp] theorem setFlag_a (n : Nat) (b : Bool) : (setFlag n b s).a = s.a := rfl
@[simp] theorem setFlag_x (n : Nat) (b : Bool) : (setFlag n b s).x = s.x := rfl
@[simp] theorem setFlag_y (n : Nat) (b : Bool) : (setFlag n b s).y = s.y := rfl
@[simp] theorem setFlag_sp (n : Nat) (b : Bool) : (setFlag n b s).sp = s.sp := rfl
@[simp] theorem setFlag_pc (n : Nat) (b : Bool) : (setFlag n b s).pc = s.pc := rfl
@[simp] theorem setFlag_sr (n : Nat) (b : Bool) : (setFlag n b s).sr = putBit s.sr n b := rfl
@[simp] theorem setFlag_loc (n : Nat) (b : Bool) : (setFlag n b s).loc = s.loc := rfl
@[simp] theorem setFlag_rs (n : Nat) (b : Bool) : (setFlag n b s).rs = s.rs := rfl
@[simp] theorem setFlag_dl (n : Nat) (b : Bool) : (setFlag n b s).dl = s.dl := rfl
@[simp] theorem setFlag_mem (n : Nat) (b : Bool) : (setFlag n b s).mem = s.mem := rfl
@[simp] theorem setFlag_cfg (n : Nat) (b : Bool) : (setFlag n b s).cfg = s.cfg := rfl
@[simp] theorem setFlag_freeCount (n : Nat) (b : Bool) : (setFlag n b s).freeCount = s.freeCount := rfl

@[simp] theorem setZN_a (v : Byte) : (setZN v s).a = s.a := rfl
@[simp] theorem setZN_x (v : Byte) : (setZN v s).x = s.x := rfl
@[simp] theorem setZN_y (v : Byte) : (setZN v s).y = s.y := rfl
@[simp] theorem setZN_sp (v : Byte) : (setZN v s).sp = s.sp := rfl
@[simp] theorem setZN_pc (v : Byte) : (setZN v s).pc = s.pc := rfl
@[simp] theorem setZN_sr (v : Byte) : (setZN v s).sr = zeroNegative v s.sr := rfl
@[simp] theorem setZN_loc (v : Byte) : (setZN v s).loc = s.loc := rfl
@[simp] theorem setZN_rs (v : Byte) : (setZN v s).rs = s.rs := rfl
@[simp] theorem setZN_dl (v : Byte) : (setZN v s).dl = s.dl := rfl
@[simp] theorem setZN_mem (v : Byte) : (setZN v s).mem = s.mem := rfl
@[simp] theorem setZN_cfg (v : Byte) : (setZN v s).cfg = s.cfg := rfl
@[simp] theorem setZN_freeCount (v : Byte) : (setZN v s).freeCount = s.freeCount := rfl

@[simp] theorem setZNFor_a (m : ZnMnemonic) (r : Byte) : (setZNFor m r s).a = s.a := rfl
@[simp] theorem setZNFor_x (m : ZnMnemonic) (r : Byte) : (setZNFor m r s).x = s.x := rfl
@[simp] theorem setZNFor_y (m : ZnMnemonic) (r : Byte) : (setZNFor m r s).y = s.y := rfl
@[simp] theorem setZNFor_sp (m : ZnMnemonic) (r : Byte) : (setZNFor m r s).sp = s.sp := rfl
@[simp] theorem setZNFor_pc (m : ZnMnemonic) (r : Byte) : (setZNFor m r s).pc = s.pc := rfl
@[simp] theorem setZNFor_sr (m : ZnMnemonic) (r : Byte) : (setZNFor m r s).sr = zeroNegative (if s.cfg.znFromA.contains m then s.a else r) s.sr := rfl
@[simp] theorem setZNFor_loc (m : ZnMnemonic) (r : Byte) : (setZNFor m r s).loc = s.loc := rfl
@[simp] theorem setZNFor_rs (m : ZnMnemonic) (r : Byte) : (setZNFor m r s).rs = s.rs := rfl
@[simp] theorem setZNFor_dl (m : ZnMnemonic) (r : Byte) : (setZNFor m r s).dl = s.dl := rfl
@[simp] theorem setZNFor_mem (m : ZnMnemonic) (r : Byte) : (setZNFor m r s).mem = s.mem := rfl
@[simp] theorem setZNFor_cfg (m : ZnMnemonic) (r : Byte) : (setZNFor m r s).cfg = s.cfg := rfl
@[simp] theorem setZNFor_freeCount (m : ZnMnemonic) (r : Byte) : (setZNFor m r s).freeCount = s.freeCount := rfl

@[simp] theorem emit_a (e : Event) : (emit e s).a = s.a := rfl
@[simp] theorem emit_x (e : Event) : (emit e s).x = s.x := rfl
@[simp] theorem emit_y (e : Event) : (emit e s).y = s.y := rfl
@[simp] theorem emit_sp (e : Event) : (emit e s).sp = s.sp := rfl
@[simp] theorem emit_pc (e : Event) : (emit e s).pc = s.pc := rfl
@[simp] theorem emit_sr (e : Event) : (emit e s).sr = s.sr := rfl
@[simp] theorem emit_loc (e : Event) : (emit e s).loc = s.loc := rfl
@[simp] theorem emit_rs (e : Event) : (emit e s).rs = s.rs := rfl
@[simp] theorem emit_dl (e : Event) : (emit e s).dl = s.dl ++ [e] := rfl
@[simp] theorem emit_mem (e : Event) : (emit e s).mem = s.mem := rfl
@[simp] theorem emit_cfg (e : Event) : (emit e s).cfg = s.cfg := rfl
@[simp] theorem emit_freeCount (e : Event) : (emit e s).freeCount = s.freeCount := rfl

@[simp] theorem raise_a (f : Fault) : (raise f s).a = s.a := rfl
@[simp] theorem raise_x (f : Fault) : (raise f s).x = s.x := rfl
@[simp] theorem raise_y (f : Fault) : (raise f s).y = s.y := rfl
@[simp] theorem raise_sp (f : Fault) : (raise f s).sp = s.sp := rfl
@[simp] theorem raise_pc (f : Fault) : (raise f s).pc = s.pc := rfl
@[simp] theorem raise_sr (f : Fault) : (raise f s).sr = s.sr := rfl
@[simp] theorem raise_loc (f : Fault) : (raise f s).loc = s.loc := rfl
@[simp] theorem raise_rs (f : Fault) : (raise f s).rs = .faulted f := rfl
@[simp] theorem raise_dl (f : Fault) : (raise f s).dl = s.dl := rfl
@[simp] theorem raise_mem (f : Fault) : (raise f s).mem = s.mem := rfl
@[simp] theorem raise_cfg (f : Fault) : (raise f s).cfg = s.cfg := rfl
@[simp] theorem raise_freeCount (f : Fault) : (raise f s).freeCount = s.freeCount := rfl

@[simp] theorem halt_a (st : Byte) : (halt st s).a = s.a := rfl
@[simp] theorem halt_x (st : Byte) : (halt st s).x = s.x := rfl
@[simp] theorem halt_y (st : Byte) : (halt st s).y = s.y := rfl
@[simp] theorem halt_sp (st : Byte) : (halt st s).sp = s.sp := rfl
@[simp] theorem halt_pc (st : Byte) : (halt st s).pc = s.pc := rfl
@[simp] theorem halt_sr (st : Byte) : (halt st s).sr = s.sr := rfl
@[simp] theorem halt_loc (st : Byte) : (halt st s).loc = s.loc := rfl
@[simp] theorem halt_rs (st : Byte) : (halt st s).rs = .halted st := rfl
@[simp] theorem halt_dl (st : Byte) : (halt st s).dl = s.dl := rfl
@[simp] theorem halt_mem (st : Byte) : (halt st s).mem = s.mem := rfl
@[simp] theorem halt_cfg (st : Byte) : (halt st s).cfg = s.cfg := rfl
@[simp] theorem halt_freeCount (st : Byte) : (halt st s).freeCount = s.freeCount := rfl

@[simp] theorem pullSP_a : (pullSP s).a = s.a := rfl
@[simp] theorem pullSP_x : (pullSP s).x = s.x := rfl
@[simp] theorem pullSP_y : (pullSP s).y = s.y := rfl
@[simp] theorem pullSP_sp : (pullSP s).sp = s.sp + 1 := rfl
@[simp] theorem pullSP_pc : (pullSP s).pc = s.pc := rfl
@[simp] theorem pullSP_sr : (pullSP s).sr = s.sr := rfl
@[simp] theorem pullSP_loc : (pullSP s).loc = s.loc := rfl
@[simp] theorem pullSP_rs : (pullSP s).rs = s.rs := rfl
@[simp] theorem pullSP_dl : (pullSP s).dl = s.dl := rfl
@[simp] theorem pullSP_mem : (pullSP s).mem = s.mem := rfl
@[simp] theorem pullSP_cfg : (pullSP s).cfg = s.cfg := rfl
@[simp] theorem pullSP_freeCount : (pullSP s).freeCount = s.freeCount := rfl

end Sys2Proof.Machine
end

