-- ==== Sys2Proof/Laws/Ops.lean ====
section
/-! SUPPORT. One lemma per shared operation that says everything it does. -/
namespace Sys2Proof.Machine

variable (s : State)

theorem memRead_eq (addr : Word) : memRead addr s = s.mem.read addr.toNat := rfl

/-- A write is accepted, or refused with one event; there is nothing else it can do (20_memory.md R44, R45). -/
theorem memWrite_cases (addr : Word) (v : Byte) (p : Privilege) :
    (p = .unpriv ∧ isProtected addr = true ∧
      memWrite addr v p s = { s with dl := s.dl ++ [.writeRejected addr v] }) ∨
    (¬(p = .unpriv ∧ isProtected addr = true) ∧
      memWrite addr v p s = { s with mem := s.mem.write addr.toNat v }) := by
  unfold memWrite
  split
  · next h => exact .inl ⟨h.1, h.2, rfl⟩
  · next h => exact .inr ⟨h, rfl⟩

/-- A privileged write is never refused. -/
@[simp] theorem memWrite_priv (addr : Word) (v : Byte) :
    memWrite addr v .priv s = { s with mem := s.mem.write addr.toNat v } := by simp [memWrite]

/-- A zero-page address is never protected (41_load_store.md R91). -/
theorem isProtected_zeroPage (zp : Byte) : isProtected (zp.zeroExtend 16) = false := by
  have := zp.isLt
  simp [isProtected]
  omega

@[simp] theorem stackAddr_toNat (sp : Byte) : (stackAddr sp).toNat = 0x100 + sp.toNat := by
  have := sp.isLt
  simp [stackAddr, BitVec.toNat_add]
  omega

/-- A push, as one record (44_stack_flags.md R125). -/
theorem push_eq (v : Byte) :
    push v s = { s with sp := s.sp - 1, mem := s.mem.write (0x100 + s.sp.toNat) v } := by
  simp [push, setSP]

/-- A pulled byte (44_stack_flags.md R126). -/
theorem pullByte_eq : pullByte s = s.mem.read (0x100 + (s.sp + 1).toNat) := by
  simp [pullByte, memRead]

/-- The memory after the three pushes of the interrupt sequence. -/
def framedMem (s : State) : Memory :=
  ((s.mem.write (0x100 + s.sp.toNat) (highByte s.pc)).write (0x100 + (s.sp - 1).toNat) (lowByte s.pc)).write
    (0x100 + (s.sp - 2).toNat) s.sr

/-- The interrupt sequence, as one record (60_exceptions.md R157). -/
theorem interruptSequence_eq (vec : Word) :
    interruptSequence vec s =
      { s with
        sp := s.sp - 3
        mem := framedMem s
        sr := if s.cfg.interruptSetsI then putBit s.sr bitI true else s.sr
        pc := wordOf ((framedMem s).read vec.toNat) ((framedMem s).read (vec + 1).toNat) } := by
  have h2 : s.sp - 1 - 1 = s.sp - 2 := by bv_omega
  have h3 : s.sp - 2 - 1 = s.sp - 3 := by bv_omega
  cases hi : s.cfg.interruptSetsI <;>
    simp only [interruptSequence, push_eq, setPC, setFlag, setSR, readWord, memRead, framedMem, hi, h2, h3, if_true,
      if_false, Bool.false_eq_true]

/-- The three stack writes of the interrupt sequence leave an address outside the stack page alone. -/
theorem framedMem_read_other (addr : Nat) (h : addr < 0x100 ∨ 0x200 ≤ addr) :
    (framedMem s).read addr = s.mem.read addr := by
  have h0 := s.sp.isLt
  have h1 := (s.sp - 1).isLt
  have h2 := (s.sp - 2).isLt
  simp only [framedMem, Memory.read_write]
  rw [if_neg (by omega), if_neg (by omega), if_neg (by omega)]

theorem framedMem_wf (h : s.mem.wf = true) : (framedMem s).wf = true := by
  have h0 := s.sp.isLt
  have h1 := (s.sp - 1).isLt
  have h2 := (s.sp - 2).isLt
  exact Memory.wf_write _ _ (Memory.wf_write _ _ (Memory.wf_write _ _ h (by omega)) (by omega)) (by omega)

/-- Memory stays in canonical form through any write of a byte. -/
theorem memWrite_wf (addr : Word) (v : Byte) (p : Privilege) (h : s.mem.wf = true) :
    (memWrite addr v p s).mem.wf = true := by
  rcases memWrite_cases s addr v p with ⟨-, -, e⟩ | ⟨-, e⟩ <;> rw [e]
  · exact h
  · exact Memory.wf_write_word addr v h

theorem writeRange_wf (addr : Word) (bytes : List Byte) (p : Privilege) (h : s.mem.wf = true) :
    (writeRange addr bytes p s).mem.wf = true := by
  induction bytes generalizing addr s with
  | nil => exact h
  | cons b bs ih => exact ih _ _ (memWrite_wf s addr b p h)

/-- A write, refused or not, changes nothing but memory and the diagnostic log. -/
theorem memWrite_frame (addr : Word) (v : Byte) (p : Privilege) :
    memWrite addr v p s = { s with mem := (memWrite addr v p s).mem, dl := (memWrite addr v p s).dl } := by
  rcases memWrite_cases s addr v p with ⟨-, -, e⟩ | ⟨-, e⟩ <;> rw [e]

/-- A checked increment succeeds, or is the one fault of the machine (00_scope.md R19). -/
theorem nextAddr_cases (addr : Word) :
    (nextAddr addr s = .ok (addr + 1) ∧ ¬(addr = 0xFFFF ∧ s.cfg.addrOverflow = .fault)) ∨
    (nextAddr addr s = .error (.addressOverflow 0xFFFF) ∧ addr = 0xFFFF ∧ s.cfg.addrOverflow = .fault) := by
  unfold nextAddr
  split
  · next h => exact .inr ⟨by rw [h.1], h⟩
  · next h => exact .inl ⟨rfl, h⟩

/-- The high byte's address under P_JMP_IND_PAGE_WRAP, as a number (45_control_system.md R141). -/
theorem pageWrap_toNat (ptr : Word) :
    ((ptr &&& 0xFF00) ||| ((ptr + 1) &&& 0x00FF)).toNat =
      ptr.toNat / 256 * 256 + (ptr.toNat + 1) % 256 := by
  have hi : ∀ p : Word, p &&& (0xFF00 : Word) = (p >>> 8) <<< 8 := by
    intro p
    apply BitVec.eq_of_getLsbD_eq
    intro i h
    have e : ∀ k : Fin 16, (0xFF00 : Word).getLsbD k.1 = decide (8 ≤ k.1) := by decide
    rw [BitVec.getLsbD_and, e ⟨i, h⟩, BitVec.getLsbD_shiftLeft, BitVec.getLsbD_ushiftRight]
    by_cases hx : i < 8
    · simp [hx, show ¬8 ≤ i by omega]
    · simp [hx, h, show 8 ≤ i by omega, show 8 + (i - 8) = i by omega]
  have hl : ∀ p : Word, p &&& (0x00FF : Word) = (p.setWidth 8).setWidth 16 := by
    intro p
    apply BitVec.eq_of_getLsbD_eq
    intro i h
    have e : ∀ k : Fin 16, (0x00FF : Word).getLsbD k.1 = decide (k.1 < 8) := by decide
    rw [BitVec.getLsbD_and, e ⟨i, h⟩]
    by_cases hx : i < 8 <;> simp [hx, h]
  rw [hi, hl, ← BitVec.add_eq_or_of_and_eq_zero]
  · have := ptr.isLt
    simp [BitVec.toNat_add, Nat.shiftRight_eq_div_pow, Nat.shiftLeft_eq]
    omega
  · apply BitVec.eq_of_getLsbD_eq
    intro i h
    by_cases hx : i < 8 <;> simp [hx, h]

end Sys2Proof.Machine
end

