-- ==== Sys2Proof/Laws/PerInstr.lean ====
section
/-! SUPPORT. The per-instruction family EncodedLength: what an instruction encodes to is as long as Instr.length says
(30_encoding.md R60, R79), in every configuration. One lemma for each constructor. -/
namespace Sys2Proof.Laws.EncodedLength

open Sys2Proof

/-- The bytes of `i` are as many as its length. -/
def Statement (i : Instr) : Prop := ∀ (c : Config) (bytes : List Byte), encode c i = some bytes → bytes.length = i.length

/-- A row whose bytes do not depend on the configuration. -/
theorem of_fixed (i : Instr) (front : List Byte) (h : ∀ c, encode c i = some front) (hl : front.length = i.length) :
    Statement i := by
  intro c bytes hb
  rw [h c, Option.some.injEq] at hb
  exact hb ▸ hl

/-- A row of the diagnostic extension, whose opcode byte is a parameter. -/
theorem of_diag (i : Instr) (opcode : Config → Option Byte) (form : Byte → List Byte)
    (h : ∀ c, encode c i = if c.diagExt then (opcode c).map form else none)
    (hl : ∀ op, (form op).length = i.length) : Statement i := by
  intro c bytes hb
  rw [h c] at hb
  split at hb
  · obtain ⟨op, -, rfl⟩ := Option.map_eq_some_iff.mp hb
    exact hl op
  · cases hb

theorem ldaImm (v : Byte) : Statement (.ldaImm v) := of_fixed _ _ (fun _ => rfl) rfl
theorem staZp (v : Byte) : Statement (.staZp v) := of_fixed _ _ (fun _ => rfl) rfl
theorem staAbs (v : Word) : Statement (.staAbs v) := of_fixed _ _ (fun _ => rfl) rfl
theorem stxZp (v : Byte) : Statement (.stxZp v) := of_fixed _ _ (fun _ => rfl) rfl
theorem styZp (v : Byte) : Statement (.styZp v) := of_fixed _ _ (fun _ => rfl) rfl
theorem adcImm (v : Byte) : Statement (.adcImm v) := of_fixed _ _ (fun _ => rfl) rfl
theorem adcZp (v : Byte) : Statement (.adcZp v) := of_fixed _ _ (fun _ => rfl) rfl
theorem adcAbs (v : Word) : Statement (.adcAbs v) := of_fixed _ _ (fun _ => rfl) rfl
theorem aslA : Statement .aslA := of_fixed _ _ (fun _ => rfl) rfl
theorem tax : Statement .tax := of_fixed _ _ (fun _ => rfl) rfl
theorem txa : Statement .txa := of_fixed _ _ (fun _ => rfl) rfl
theorem tay : Statement .tay := of_fixed _ _ (fun _ => rfl) rfl
theorem tya : Statement .tya := of_fixed _ _ (fun _ => rfl) rfl
theorem tsx : Statement .tsx := of_fixed _ _ (fun _ => rfl) rfl
theorem txs : Statement .txs := of_fixed _ _ (fun _ => rfl) rfl
theorem inx : Statement .inx := of_fixed _ _ (fun _ => rfl) rfl
theorem iny : Statement .iny := of_fixed _ _ (fun _ => rfl) rfl
theorem dex : Statement .dex := of_fixed _ _ (fun _ => rfl) rfl
theorem dey : Statement .dey := of_fixed _ _ (fun _ => rfl) rfl
theorem pha : Statement .pha := of_fixed _ _ (fun _ => rfl) rfl
theorem php : Statement .php := of_fixed _ _ (fun _ => rfl) rfl
theorem pla : Statement .pla := of_fixed _ _ (fun _ => rfl) rfl
theorem plp : Statement .plp := of_fixed _ _ (fun _ => rfl) rfl
theorem clc : Statement .clc := of_fixed _ _ (fun _ => rfl) rfl
theorem sec : Statement .sec := of_fixed _ _ (fun _ => rfl) rfl
theorem cli : Statement .cli := of_fixed _ _ (fun _ => rfl) rfl
theorem sei : Statement .sei := of_fixed _ _ (fun _ => rfl) rfl
theorem clv : Statement .clv := of_fixed _ _ (fun _ => rfl) rfl
theorem cld : Statement .cld := of_fixed _ _ (fun _ => rfl) rfl
theorem sed : Statement .sed := of_fixed _ _ (fun _ => rfl) rfl
theorem jmpAbs (v : Word) : Statement (.jmpAbs v) := of_fixed _ _ (fun _ => rfl) rfl
theorem jmpInd (v : Word) : Statement (.jmpInd v) := of_fixed _ _ (fun _ => rfl) rfl
theorem brk : Statement .brk := of_fixed _ _ (fun _ => rfl) rfl
theorem nop : Statement .nop := of_fixed _ _ (fun _ => rfl) rfl
theorem print (v : Word) : Statement (.print v) := of_diag _ (·.printOpcode) (wordForm · v) (fun _ => rfl) (fun _ => rfl)
theorem exit (status : Option Byte) : Statement (.exit status) := by
  cases status with
  | none => exact of_diag _ (·.exitOpcode) (fun op => [op]) (fun _ => rfl) (fun _ => rfl)
  | some s => exact of_diag _ (·.exitOpcode) (fun op => [op, s]) (fun _ => rfl) (fun _ => rfl)

end Sys2Proof.Laws.EncodedLength
end

