-- ==== Sys2Proof/Laws/Step.lean ====
section
/-! SUPPORT. What a fetch can do, and the one inversion lemma of a step, from which every statement about a step
follows. -/
namespace Sys2Proof.Machine

/-! ### Fetch -/

@[simp] theorem memRead_setPC (addr p : Word) (s : State) : memRead addr (setPC p s) = memRead addr s := rfl

@[simp] theorem setPC_setPC (p q : Word) (s : State) : setPC p (setPC q s) = setPC p s := rfl

theorem fetchByte_eq (s : State) :
    fetchByte s = if fetchOverflows 1 s then .error (.addressOverflow 0xFFFF)
      else .ok (memRead s.pc s, setPC (s.pc + 1) s) := by
  have hpc := s.pc.isLt
  have e : (s.pc = 0xFFFF ∧ s.cfg.addrOverflow = .fault) ↔ fetchOverflows 1 s = true := by
    simp only [fetchOverflows, Bool.and_eq_true, decide_eq_true_eq]
    constructor
    · rintro ⟨h1, h2⟩; exact ⟨h2, by simp [h1]⟩
    · rintro ⟨h1, h2⟩; exact ⟨BitVec.eq_of_toNat_eq (by simp; omega), h1⟩
  unfold fetchByte
  rcases nextAddr_cases s s.pc with ⟨h, hn⟩ | ⟨h, hn⟩
  · rw [h, if_neg (fun hf => hn (e.mpr hf))]
  · rw [h, if_pos (e.mp hn)]

/-- After one fetch that does not overflow, `n` more overflow exactly when `n + 1` did. -/
theorem fetchOverflows_succ {n : Nat} {s : State} (h : fetchOverflows 1 s = false) :
    fetchOverflows n (setPC (s.pc + 1) s) = fetchOverflows (n + 1) s := by
  have hpc := s.pc.isLt
  have e0 : fetchOverflows n (setPC (s.pc + 1) s) =
    (decide (s.cfg.addrOverflow = .fault) && decide (65536 ≤ (s.pc + 1).toNat + n)) := rfl
  rw [e0, fetchOverflows]
  by_cases ha : s.cfg.addrOverflow = .fault
  · have : ¬65536 ≤ s.pc.toNat + 1 := by simpa [fetchOverflows, ha] using h
    have e : (s.pc + 1).toNat = s.pc.toNat + 1 := by simp [BitVec.toNat_add]; omega
    rw [e]
    congr 2
    apply propext
    omega
  · simp [ha]

theorem fetchOverflows_mono {m n : Nat} {s : State} (hmn : m ≤ n) (h : fetchOverflows m s = true) :
    fetchOverflows n s = true := by
  simp only [fetchOverflows, Bool.and_eq_true, decide_eq_true_eq] at h ⊢
  exact ⟨h.1, by omega⟩

/-- Two bytes fetched in a row (30_encoding.md R63). -/
theorem fetchWord_eq (s : State) :
    fetchWord s = if fetchOverflows 2 s then .error (.addressOverflow 0xFFFF)
      else .ok (wordOf (memRead s.pc s) (memRead (s.pc + 1) s), setPC (s.pc + 1 + 1) s) := by
  unfold fetchWord
  rw [fetchByte_eq]
  cases h1 : fetchOverflows 1 s with
  | true => simp only [fetchOverflows_mono (by decide : 1 ≤ 2) h1, if_true]
  | false =>
    simp only [Bool.false_eq_true, if_false, fetchByte_eq, fetchOverflows_succ h1]
    cases h2 : fetchOverflows (1 + 1) s <;>
      simp only [Bool.false_eq_true, if_false, if_true, setPC_pc, setPC_setPC, memRead_setPC]

/-- Fetching a handler's operands: the decoder's answer on the operand bytes. -/
theorem fetchOperands_eq (h : Handler) (s : State) (hl : h.lengthAgrees) :
    fetchOperands h (setPC (s.pc + 1) s) =
      match assemble h [memRead (s.pc + 1) s, memRead (s.pc + 2) s] with
      | .ok i _ =>
        if fetchOverflows 1 s then fetchOperands h (setPC (s.pc + 1) s)
        else if fetchOverflows i.length s then .error (.addressOverflow 0xFFFF)
        else .ok (.instr i, setPC (s.pc + BitVec.ofNat 16 i.length) s)
      | .error _ => fetchOperands h (setPC (s.pc + 1) s) := by
  have h2 : s.pc + 1 + 1 = s.pc + 2 := by bv_omega
  have h3 : s.pc + 2 + 1 = s.pc + 3 := by bv_omega
  cases h1 : fetchOverflows 1 s with
  | true => cases h <;> simp only [assemble, if_true]
  | false =>
    cases h with
    | implied i =>
      have e : i.length = 1 := hl
      simp only [assemble, fetchOperands, e, h1, Bool.false_eq_true, if_false]
      rfl
    | byte mk =>
      have e : ∀ b, (mk b).length = 2 := hl
      simp only [assemble, fetchOperands, e, Bool.false_eq_true, if_false, fetchByte_eq, fetchOverflows_succ h1]
      cases fetchOverflows (1 + 1) s <;>
        simp only [Bool.false_eq_true, if_false, if_true, setPC_pc, setPC_setPC, memRead_setPC, h2]
      rfl
    | word mk =>
      have e : ∀ w, (mk w).length = 3 := hl
      simp only [assemble, fetchOperands, e, Bool.false_eq_true, if_false, fetchWord_eq, fetchOverflows_succ h1]
      cases fetchOverflows (2 + 1) s <;>
        simp only [Bool.false_eq_true, if_false, if_true, setPC_pc, setPC_setPC, memRead_setPC, h2, h3]
      rfl

/-- Two operand bytes are enough for every handler. -/
theorem assemble_two_ok (h : Handler) (b b' : Byte) : ∃ i rest, assemble h [b, b'] = .ok i rest := by
  cases h <;> exact ⟨_, _, rfl⟩

/-- Every instruction is at least one byte long. -/
theorem length_pos (i : Instr) : 1 ≤ i.length := by
  cases i <;> first | (simp [Instr.length]; done) | (next st => cases st <;> simp [Instr.length])

/-- The fetch of one instruction, in terms of the decoder on the bytes at PC. -/
theorem fetchInstr_eq (s : State) :
    fetchInstr s =
      match decode s.cfg (codeBytes s) with
      | .ok i _ =>
        if fetchOverflows i.length s then .error (.addressOverflow 0xFFFF)
        else .ok (.instr i, setPC (s.pc + BitVec.ofNat 16 i.length) s)
      | .error _ =>
        if fetchOverflows 1 s then .error (.addressOverflow 0xFFFF)
        else .ok (.unrecognized (memRead s.pc s), setPC (s.pc + 1) s) := by
  unfold fetchInstr decode codeBytes
  rw [fetchByte_eq]
  cases hd : dispatch s.cfg (memRead s.pc s) with
  | none =>
    cases h1 : fetchOverflows 1 s <;> simp only [hd, if_true, if_false, Bool.false_eq_true]
  | some h =>
    have hl := dispatch_lengthAgrees hd
    obtain ⟨i, rest, ha⟩ := assemble_two_ok h (memRead (s.pc + 1) s) (memRead (s.pc + 2) s)
    have ho := fetchOperands_eq h s hl
    cases h1 : fetchOverflows 1 s with
    | true =>
      simp only [hd, ha, if_true, fetchOverflows_mono (length_pos i) h1]
    | false =>
      simp only [ha, h1, Bool.false_eq_true, if_false] at ho
      simp only [hd, ha, Bool.false_eq_true, if_false, ho]

/-- The same, after L is latched: neither the decoder nor the overflow test reads L. -/
theorem fetchInstr_latched (s : State) (l : Word) :
    fetchInstr { s with loc := l } =
      match decode s.cfg (codeBytes s) with
      | .ok i _ =>
        if fetchOverflows i.length s then .error (.addressOverflow 0xFFFF)
        else .ok (.instr i, { s with loc := l, pc := s.pc + BitVec.ofNat 16 i.length })
      | .error _ =>
        if fetchOverflows 1 s then .error (.addressOverflow 0xFFFF)
        else .ok (.unrecognized (memRead s.pc s), { s with loc := l, pc := s.pc + 1 }) :=
  fetchInstr_eq { s with loc := l }

/-! ### The step -/

theorem step_of_running {s : State} (h : s.rs = .running) : step s = runStep exec s := by
  simp only [step, h]

/-- A running step, in terms of the decoder on the bytes at PC (30_encoding.md R70). -/
theorem step_running (s : State) (h : s.rs = .running) :
    step s =
      match decode s.cfg (codeBytes s) with
      | .ok i _ =>
        if fetchOverflows i.length s then .next (raise (.addressOverflow 0xFFFF) s)
        else settle s (exec i (fetchedState i.length s))
      | .error _ =>
        if fetchOverflows 1 s then .next (raise (.addressOverflow 0xFFFF) s)
        else .next (emit (.badOpcode s.pc (memRead s.pc s)) (fetchedState 1 s)) := by
  rw [step_of_running h]
  unfold runStep
  rw [fetchInstr_latched]
  cases decode s.cfg (codeBytes s) with
  | ok i rest =>
    cases h : fetchOverflows i.length s <;> simp only [h, if_true, if_false, Bool.false_eq_true, fetchedState]
  | error e => cases fetchOverflows 1 s <;> simp only [if_true, if_false, Bool.false_eq_true, fetchedState]; rfl

theorem step_not_running (s : State) (h : s.rs ≠ .running) : step s = .next s := by
  unfold step
  cases hr : s.rs <;> simp_all

/-! ### Which executions raise -/

/-- The instructions whose execution may raise AddressOverflow (00_scope.md R19). -/
def Instr.mayRaise : Instr → Bool
  | .jmpInd _ | .brk => true
  | _ => false

/-- An execution answers a next state; it changes RS only by EXIT, or raises the machine's one fault and changes
nothing else. -/
theorem exec_cases (i : Instr) (s : State) :
    ∃ t, exec i s = .next t ∧
      (t.rs = s.rs ∨ (∃ st, i = .exit st ∧ t.rs = .halted (st.getD 0x00)) ∨
        (s.cfg.addrOverflow = .fault ∧ Instr.mayRaise i = true ∧ t = raise (.addressOverflow 0xFFFF) s)) := by
  have hw : ∀ a v p, (memWrite a v p s).rs = s.rs := fun a v p => by rw [memWrite_frame]
  cases i with
  | exit st => exact ⟨_, rfl, .inr (.inl ⟨st, rfl, rfl⟩)⟩
  | jmpInd ptr =>
    simp only [exec, execJmpInd, pointerTarget, pointerHighAddr]
    cases s.cfg.jmpIndPageWrap with
    | true => exact ⟨_, rfl, .inl rfl⟩
    | false =>
      rcases nextAddr_cases s ptr with ⟨h, -⟩ | ⟨h, -, hf⟩ <;> simp only [h, Bool.false_eq_true, if_false]
      · exact ⟨_, rfl, .inl rfl⟩
      · exact ⟨_, rfl, .inr (.inr ⟨hf, rfl, rfl⟩)⟩
  | brk =>
    simp only [exec, execBrk, brkSequence, interruptSequence_eq]
    cases s.cfg.brkSkipsPadding with
    | false => exact ⟨_, rfl, .inl rfl⟩
    | true =>
      rcases nextAddr_cases s s.pc with ⟨h, -⟩ | ⟨h, -, hf⟩ <;> simp only [h, if_true]
      · exact ⟨_, rfl, .inl rfl⟩
      · exact ⟨_, rfl, .inr (.inr ⟨hf, rfl, rfl⟩)⟩
  | tsx => simp only [exec, execTsx]; cases s.cfg.tsxTxsMode <;> exact ⟨_, rfl, .inl rfl⟩
  | txs =>
    simp only [exec, execTxs, push_eq]
    cases s.cfg.tsxTxsMode <;> exact ⟨_, rfl, .inl rfl⟩
  | ldaImm v => exact ⟨_, rfl, .inl (by cases s.cfg.ldaSetsZN <;> rfl)⟩
  | pla => exact ⟨_, rfl, .inl (by cases s.cfg.plaSetsZN <;> rfl)⟩
  | staZp _ | staAbs _ | stxZp _ | styZp _ => exact ⟨_, rfl, .inl (hw _ _ _)⟩
  | pha | php => exact ⟨_, rfl, .inl (by rw [push_eq])⟩
  | _ => exact ⟨_, rfl, .inl rfl⟩

/-- Everything a step can do: nothing in a terminal run state; else the one fault, an unrecognized byte, or the
execution of the decoded instruction, which leaves RS Running or Halted. -/
theorem step_cases {s t : State} (h : step s = .next t) :
    (s.rs ≠ .running ∧ t = s) ∨
    (s.rs = .running ∧ s.cfg.addrOverflow = .fault ∧ t = raise (.addressOverflow 0xFFFF) s) ∨
    (s.rs = .running ∧ dispatch s.cfg (memRead s.pc s) = none ∧
      t = emit (.badOpcode s.pc (memRead s.pc s)) (fetchedState 1 s)) ∨
    (s.rs = .running ∧ ∃ i rest, decode s.cfg (codeBytes s) = .ok i rest ∧
      exec i (fetchedState i.length s) = .next t ∧ ∀ f, t.rs ≠ .faulted f) := by
  by_cases hr : s.rs = .running
  · rw [step_running s hr] at h
    cases hd : decode s.cfg (codeBytes s) with
    | error e =>
      simp only [hd] at h
      cases ho : fetchOverflows 1 s with
      | true =>
        simp only [ho, if_true, Host.Outcome.next.injEq] at h
        simp only [fetchOverflows, Bool.and_eq_true, decide_eq_true_eq] at ho
        exact .inr (.inl ⟨hr, ho.1, h.symm⟩)
      | false =>
        simp only [ho, Bool.false_eq_true, if_false, Host.Outcome.next.injEq] at h
        refine .inr (.inr (.inl ⟨hr, ?_, h.symm⟩))
        simp only [decode, codeBytes] at hd
        split at hd
        · next hh _ => cases hh <;> simp [assemble] at hd
        · assumption
    | ok i rest =>
      simp only [hd] at h
      cases ho : fetchOverflows i.length s with
      | true =>
        simp only [ho, if_true, Host.Outcome.next.injEq] at h
        simp only [fetchOverflows, Bool.and_eq_true, decide_eq_true_eq] at ho
        exact .inr (.inl ⟨hr, ho.1, h.symm⟩)
      | false =>
        simp only [ho, Bool.false_eq_true, if_false] at h
        obtain ⟨u, hu, hc⟩ := exec_cases i (fetchedState i.length s)
        rw [hu] at h
        have hrf : (fetchedState i.length s).rs = .running := hr
        rcases hc with hc | ⟨st, -, hc⟩ | ⟨hf, -, rfl⟩
        · simp only [settle, hc, hrf, Host.Outcome.next.injEq] at h
          subst h
          exact .inr (.inr (.inr ⟨hr, i, rest, rfl, hu, by simp [hc, hrf]⟩))
        · simp only [settle, hc, Host.Outcome.next.injEq] at h
          subst h
          exact .inr (.inr (.inr ⟨hr, i, rest, rfl, hu, by simp [hc]⟩))
        · simp only [settle, raise, Host.Outcome.next.injEq] at h
          exact .inr (.inl ⟨hr, hf, h.symm⟩)
  · rw [step_not_running s hr, Host.Outcome.next.injEq] at h
    exact .inl ⟨hr, h.symm⟩

/-- The opcode byte of the instruction a step decodes is the byte at PC. -/
theorem decode_codeBytes_dispatch {s : State} {i : Instr} {rest : List Byte}
    (h : decode s.cfg (codeBytes s) = .ok i rest) :
    ∃ hd, dispatch s.cfg (memRead s.pc s) = some hd := by
  simp only [decode, codeBytes] at h
  split at h
  · exact ⟨_, ‹_›⟩
  · cases h

end Sys2Proof.Machine
end

