-- ==== Sys2Proof/Tests/Slice0.lean ====
section
/-! SUPPORT. Tests on fixed values, from the spec's own vectors (95_test_vectors.md; each test names its row), and a
witness for the hypotheses of every statement of the Obligations file. -/
namespace Sys2Proof.Tests

open Sys2Proof Sys2Proof.Machine Sys2Proof.Says

/-! ### Helpers -/

/-- The default parameters with the diagnostic extension at the example values of 95_test_vectors.md. -/
def diagConfig (f : ExitFormat) : Config :=
  { Config.defaults with diagExt := true, exitOpcode := some 0x02, printOpcode := some 0x03, exitFormat := some f }

def faultConfig : Config := { Config.defaults with addrOverflow := .fault }

/-- Memory with the given bytes. -/
def memoryOf : List (Word × Byte) → Memory
  | [] => []
  | (a, v) :: cells => (memoryOf cells).write a.toNat v

/-- The start state of 95_test_vectors.md Part 2: the instruction's bytes at 0x0300, the reset vector 0x0300, and the
row's own memory bytes. -/
def start (bytes : List Byte) (cells : List (Word × Byte) := []) (c : Config := Config.defaults) : State :=
  placeBytes 0x0300 bytes { State.reset with pc := 0x0300, mem := memoryOf ((0xFFFD, 0x03) :: cells), cfg := c }

/-- The state a step answers. -/
def after (s : State) : Option State :=
  match step s with
  | .next t => some t
  | .fault _ => none
  | .refused _ => none

/-- A, X, Y, SP, SR and PC after a step. -/
def regsAfter (s : State) : Option (Byte × Byte × Byte × Byte × Byte × Word) :=
  (after s).map (fun t => (t.a, t.x, t.y, t.sp, t.sr, t.pc))

/-- SP, SR, PC and the bytes at some addresses after a step. -/
def stackAfter (s : State) (addrs : List Nat) : Option (Byte × Byte × Word × List Byte) :=
  (after s).map (fun t => (t.sp, t.sr, t.pc, addrs.map t.mem.read))

/-- PC, DL and the bytes at some addresses after a step. -/
def memAfter (s : State) (addrs : List Nat) : Option (Word × List Event × List Byte) :=
  (after s).map (fun t => (t.pc, t.dl, addrs.map t.mem.read))

/-! ### Well-formedness: an ill-formed term for each check -/

theorem test_wf_print_without_extension : Instr.wf Config.defaults (.print 0x00A3) = false := by decide
theorem test_wf_print_without_opcode :
    Instr.wf { diagConfig .implied with printOpcode := none } (.print 0x00A3) = false := by decide
theorem test_wf_exit_without_extension : Instr.wf Config.defaults (.exit none) = false := by decide
theorem test_wf_exit_without_opcode :
    Instr.wf { diagConfig .implied with exitOpcode := none } (.exit none) = false := by decide
theorem test_wf_exit_without_format :
    Instr.wf { diagConfig .implied with exitFormat := none } (.exit none) = false := by decide
theorem test_wf_exit_wrong_form :
    Instr.wf (diagConfig .implied) (.exit (some 1)) = false ∧ Instr.wf (diagConfig .immediate) (.exit none) = false := by
  decide
theorem test_wf_accepts :
    Instr.wf (diagConfig .implied) (.exit none) = true ∧ Instr.wf (diagConfig .immediate) (.exit (some 1)) = true ∧
    Instr.wf (diagConfig .implied) (.print 0xFFFF) = true ∧ Instr.wf Config.defaults (.jmpAbs 0xFFFF) = true := by
  decide
/-- V-DX-6, and the other ways a configuration breaks 30_encoding.md R69. -/
theorem test_wf_config_refused :
    Config.wf { diagConfig .implied with printOpcode := some 0xA9 } = false ∧
    Config.wf { diagConfig .implied with exitOpcode := some 0x00 } = false ∧
    Config.wf { diagConfig .implied with exitOpcode := some 0x03 } = false ∧
    Config.wf { diagConfig .implied with exitOpcode := none } = false ∧
    Config.wf (diagConfig .implied) = true ∧ Config.wf Config.defaults = true := by decide

/-! ### Decoding: the bytes of 30_encoding.md R66's table, written out -/

theorem test_decode_load_store :
    decode Config.defaults [0xA9, 0x03, 0x69] = .ok (.ldaImm 0x03) [0x69] ∧
    decode Config.defaults [0x85, 0xA3] = .ok (.staZp 0xA3) [] ∧
    decode Config.defaults [0x8D, 0x34, 0x12] = .ok (.staAbs 0x1234) [] ∧
    decode Config.defaults [0x86, 0x10] = .ok (.stxZp 0x10) [] ∧
    decode Config.defaults [0x84, 0x11] = .ok (.styZp 0x11) [] := by decide
theorem test_decode_arithmetic :
    decode Config.defaults [0x69, 0x07] = .ok (.adcImm 0x07) [] ∧
    decode Config.defaults [0x65, 0x40] = .ok (.adcZp 0x40) [] ∧
    decode Config.defaults [0x6D, 0xFC, 0xFF] = .ok (.adcAbs 0xFFFC) [] ∧
    decode Config.defaults [0x0A] = .ok .aslA [] := by decide
theorem test_decode_transfer :
    decode Config.defaults [0xAA] = .ok .tax [] ∧ decode Config.defaults [0x8A] = .ok .txa [] ∧
    decode Config.defaults [0xA8] = .ok .tay [] ∧ decode Config.defaults [0x98] = .ok .tya [] ∧
    decode Config.defaults [0xBA] = .ok .tsx [] ∧ decode Config.defaults [0x9A] = .ok .txs [] := by decide
theorem test_decode_inc_dec :
    decode Config.defaults [0xE8] = .ok .inx [] ∧ decode Config.defaults [0xC8] = .ok .iny [] ∧
    decode Config.defaults [0xCA] = .ok .dex [] ∧ decode Config.defaults [0x88] = .ok .dey [] := by decide
theorem test_decode_stack :
    decode Config.defaults [0x48] = .ok .pha [] ∧ decode Config.defaults [0x08] = .ok .php [] ∧
    decode Config.defaults [0x68] = .ok .pla [] ∧ decode Config.defaults [0x28] = .ok .plp [] := by decide
theorem test_decode_flags :
    decode Config.defaults [0x18] = .ok .clc [] ∧ decode Config.defaults [0x38] = .ok .sec [] ∧
    decode Config.defaults [0x58] = .ok .cli [] ∧ decode Config.defaults [0x78] = .ok .sei [] ∧
    decode Config.defaults [0xB8] = .ok .clv [] ∧ decode Config.defaults [0xD8] = .ok .cld [] ∧
    decode Config.defaults [0xF8] = .ok .sed [] := by decide
theorem test_decode_control :
    decode Config.defaults [0x4C, 0x00, 0xFF] = .ok (.jmpAbs 0xFF00) [] ∧
    decode Config.defaults [0x6C, 0x10, 0x00] = .ok (.jmpInd 0x0010) [] ∧
    decode Config.defaults [0x00] = .ok .brk [] ∧ decode Config.defaults [0xEA] = .ok .nop [] := by decide
/-- V-DX-1 to V-DX-3, V-DX-5. -/
theorem test_decode_diagnostic :
    decode (diagConfig .implied) [0x03, 0xA3, 0x00] = .ok (.print 0x00A3) [] ∧
    decode (diagConfig .implied) [0x02, 0x01] = .ok (.exit none) [0x01] ∧
    decode (diagConfig .immediate) [0x02, 0x01] = .ok (.exit (some 0x01)) [] ∧
    decode Config.defaults [0x02] = .error (.unrecognized 0x02) := by decide
/-- The bytes of RTS, RTI, JSR and 0xFF have no row (V-BAD-1 to V-BAD-5). -/
theorem test_decode_unrecognized :
    decode Config.defaults [0x60, 0x12, 0x34] = .error (.unrecognized 0x60) ∧
    decode Config.defaults [0x40] = .error (.unrecognized 0x40) ∧
    decode Config.defaults [0x20, 0x00, 0x04] = .error (.unrecognized 0x20) ∧
    decode Config.defaults [0xFF] = .error (.unrecognized 0xFF) ∧
    decode Config.defaults [0x8D, 0x00] = .error .truncated := by decide
/-- Bit 0 is the least significant bit of the first byte; operand bits above nbits are zero. -/
theorem test_table_word :
    decodeTableWord 16 0x03A9 = some (.ldaImm 0x03) ∧ decodeTableWord 24 0x12348D = some (.staAbs 0x1234) ∧
    decodeTableWord 8 0x4C = some (.jmpAbs 0x0000) ∧ decodeTableWord 8 0xFF = none := by decide
theorem test_fetch_word :
    regsAfter (State.reset.withFetchWord 16 0x03A9) = some (0x03, 0, 0, 0xFD, 0x20, 0x0002) := by decide

/-! ### One step of each instruction -/

/-- V-LDA-2, V-LDA-5. -/
theorem test_lda_zero :
    regsAfter (start [0xA9, 0x00]) = some (0, 0, 0, 0xFD, 0x22, 0x0302) := by decide
theorem test_lda_without_flags :
    regsAfter { start [0xA9, 0x00] [] { Config.defaults with ldaSetsZN := false } with sr := 0xA0 } =
      some (0, 0, 0, 0xFD, 0xA0, 0x0302) := by decide
/-- V-ST-1, V-ST-2. -/
theorem test_sta_zp : memAfter { start [0x85, 0xA3] with a := 0x0A } [0xA3] = some (0x0302, [], [0x0A]) := by decide
theorem test_sta_zp_top :
    memAfter { start [0x85, 0xFF] with a := 0x55 } [0xFF, 0x1FF] = some (0x0302, [], [0x55, 0x00]) := by decide
/-- V-ST-5, V-ST-7. -/
theorem test_sta_abs_last_ram :
    memAfter { start [0x8D, 0xFF, 0xFE] with a := 0x21 } [0xFEFF] = some (0x0303, [], [0x21]) := by decide
theorem test_sta_abs_refused :
    memAfter { start [0x8D, 0xFF, 0x01] with a := 0x21 } [0x1FF] =
      some (0x0303, [.writeRejected 0x01FF 0x21], [0x00]) := by decide
/-- V-ST-10, V-ST-11. -/
theorem test_stx_zp : memAfter { start [0x86, 0x10] with x := 0x81 } [0x10] = some (0x0302, [], [0x81]) := by decide
theorem test_sty_zp :
    memAfter { start [0x84, 0x11] [(0x0011, 0x99)] with y := 0x07 } [0x11] = some (0x0302, [], [0x07]) := by decide
/-- V-ADC-7, V-ADC-11. -/
theorem test_adc_imm_largest :
    regsAfter { start [0x69, 0xFF] with a := 0xFF } = some (0xFE, 0, 0, 0xFD, 0xA1, 0x0302) := by decide
theorem test_adc_imm_carry_in :
    regsAfter { start [0x69, 0x00] [] { Config.defaults with adcCarryIn := true } with a := 0xFF, sr := 0x21 } =
      some (0x00, 0, 0, 0xFD, 0x23, 0x0302) := by decide
/-- V-ADC-14, V-ADC-15. -/
theorem test_adc_zp :
    regsAfter { start [0x65, 0x40] [(0x0040, 0xF0)] with a := 0x10 } = some (0x00, 0, 0, 0xFD, 0x23, 0x0302) := by decide
theorem test_adc_zp_top :
    regsAfter { start [0x65, 0xFF] [(0x00FF, 0x02), (0x01FF, 0x50)] with a := 0x01 } =
      some (0x03, 0, 0, 0xFD, 0x20, 0x0302) := by decide
/-- V-ADC-17. -/
theorem test_adc_abs_own_byte :
    regsAfter { start [0x6D, 0x01, 0x03] with a := 0x10 } = some (0x11, 0, 0, 0xFD, 0x20, 0x0303) := by decide
/-- V-ASL-2, V-ASL-6. -/
theorem test_asl_zero_and_carry :
    regsAfter { start [0x0A] with a := 0x80 } = some (0x00, 0, 0, 0xFD, 0x23, 0x0301) := by decide
theorem test_asl_overwrites_carry :
    regsAfter { start [0x0A] with a := 0x01, sr := 0x21 } = some (0x02, 0, 0, 0xFD, 0x20, 0x0301) := by decide
/-- V-TR-2. -/
theorem test_tax : regsAfter { start [0xAA] with x := 0x55 } = some (0, 0, 0, 0xFD, 0x22, 0x0301) := by decide
/-- V-TR-3. -/
theorem test_txa : regsAfter { start [0x8A] with x := 0x81 } = some (0x81, 0x81, 0, 0xFD, 0xA0, 0x0301) := by decide
/-- V-TR-5. -/
theorem test_tay : regsAfter { start [0xA8] with y := 0x33 } = some (0, 0, 0, 0xFD, 0x22, 0x0301) := by decide
/-- V-TR-6. -/
theorem test_tya : regsAfter { start [0x98] with y := 0xFF } = some (0xFF, 0, 0xFF, 0xFD, 0xA0, 0x0301) := by decide
/-- V-TR-8, V-TR-9. -/
theorem test_tsx_wraps :
    regsAfter { start [0xBA] [(0x0100, 0x80)] with sp := 0xFF } = some (0, 0x80, 0, 0x00, 0xA0, 0x0301) := by decide
theorem test_tsx_direct :
    regsAfter (start [0xBA] [] { Config.defaults with tsxTxsMode := .direct }) =
      some (0, 0xFD, 0, 0xFD, 0xA0, 0x0301) := by decide
/-- V-TR-11, V-TR-12. -/
theorem test_txs_wraps :
    stackAfter { start [0x9A] with x := 0x42, sp := 0x00 } [0x100] = some (0xFF, 0x20, 0x0301, [0x42]) := by decide
theorem test_txs_direct :
    stackAfter (start [0x9A] [] { Config.defaults with tsxTxsMode := .direct }) [0x1FD] =
      some (0x00, 0x20, 0x0301, [0x00]) := by decide
/-- V-ID-4. -/
theorem test_inx_keeps_carry :
    regsAfter { start [0xE8] with x := 0xFF, sr := 0x21 } = some (0, 0x00, 0, 0xFD, 0x23, 0x0301) := by decide
/-- V-ID-5. -/
theorem test_iny_wraps :
    regsAfter { start [0xC8] with y := 0xFF } = some (0, 0, 0x00, 0xFD, 0x22, 0x0301) := by decide
/-- V-ID-7. -/
theorem test_dex_wraps : regsAfter (start [0xCA]) = some (0, 0xFF, 0, 0xFD, 0xA0, 0x0301) := by decide
/-- V-ID-12, V-ID-13. -/
theorem test_dey_flags_from_a :
    regsAfter { start [0x88] [] { Config.defaults with znFromA := [.dey] } with y := 0x01, a := 0x80 } =
      some (0x80, 0, 0x00, 0xFD, 0xA0, 0x0301) := by decide
theorem test_dey : regsAfter { start [0x88] with y := 0x01, a := 0x80 } = some (0x80, 0, 0, 0xFD, 0x22, 0x0301) := by
  decide
/-- V-SK-2. -/
theorem test_pha_wraps :
    stackAfter { start [0x48] with a := 0x02, sp := 0x00 } [0x100] = some (0xFF, 0x20, 0x0301, [0x02]) := by decide
/-- V-SK-5. -/
theorem test_php_as_stored :
    stackAfter { start [0x08] with sr := 0x30 } [0x1FD] = some (0xFC, 0x30, 0x0301, [0x30]) := by decide
/-- V-SK-8, V-SK-9. -/
theorem test_pla_wraps :
    regsAfter { start [0x68] [(0x0100, 0x90)] with sp := 0xFF } = some (0x90, 0, 0, 0x00, 0xA0, 0x0301) := by decide
theorem test_pla_without_flags :
    regsAfter { start [0x68] [] { Config.defaults with plaSetsZN := false } with sp := 0xFB, sr := 0xA0 } =
      some (0, 0, 0, 0xFC, 0xA0, 0x0301) := by decide
/-- V-SK-11, V-SK-12. -/
theorem test_plp_forces_bit_5 :
    regsAfter { start [0x28] with sp := 0xFC, sr := 0xFF } = some (0, 0, 0, 0xFD, 0x20, 0x0301) := by decide
theorem test_plp_sets_all :
    regsAfter { start [0x28] [(0x01FD, 0xFF)] with sp := 0xFC } = some (0, 0, 0, 0xFD, 0xFF, 0x0301) := by decide
/-- V-FL-3, and its like for the other flag instructions (44_stack_flags.md R131-R137). -/
theorem test_clc : regsAfter { start [0x18] with sr := 0xFF } = some (0, 0, 0, 0xFD, 0xFE, 0x0301) := by decide
theorem test_sec : regsAfter (start [0x38]) = some (0, 0, 0, 0xFD, 0x21, 0x0301) := by decide
theorem test_cli : regsAfter { start [0x58] with sr := 0x24 } = some (0, 0, 0, 0xFD, 0x20, 0x0301) := by decide
theorem test_sei : regsAfter (start [0x78]) = some (0, 0, 0, 0xFD, 0x24, 0x0301) := by decide
theorem test_clv : regsAfter { start [0xB8] with sr := 0x60 } = some (0, 0, 0, 0xFD, 0x20, 0x0301) := by decide
theorem test_cld : regsAfter { start [0xD8] with sr := 0x28 } = some (0, 0, 0, 0xFD, 0x20, 0x0301) := by decide
theorem test_sed : regsAfter (start [0xF8]) = some (0, 0, 0, 0xFD, 0x28, 0x0301) := by decide
/-- V-CT-1. -/
theorem test_jmp_abs : regsAfter (start [0x4C, 0x00, 0xFF]) = some (0, 0, 0, 0xFD, 0x20, 0xFF00) := by decide
/-- V-CT-4, V-CT-5. -/
theorem test_jmp_ind_crosses :
    regsAfter (start [0x6C, 0xFF, 0x10] [(0x10FF, 0x34), (0x1100, 0x12), (0x1000, 0x56)]) =
      some (0, 0, 0, 0xFD, 0x20, 0x1234) := by decide
theorem test_jmp_ind_page_wrap :
    regsAfter (start [0x6C, 0xFF, 0x10] [(0x10FF, 0x34), (0x1100, 0x12), (0x1000, 0x56)]
      { Config.defaults with jmpIndPageWrap := true }) = some (0, 0, 0, 0xFD, 0x20, 0x5634) := by decide
/-- V-CT-10, V-CT-11. -/
theorem test_brk_sets_i :
    stackAfter (start [0x00] [(0xFFFF, 0x04)] { Config.defaults with interruptSetsI := true }) [0x1FB, 0x1FC, 0x1FD] =
      some (0xFA, 0x34, 0x0400, [0x30, 0x01, 0x03]) := by decide
theorem test_brk_pushes_wrap :
    stackAfter { start [0x00] [(0xFFFF, 0x04)] with sp := 0x01 } [0x100, 0x101, 0x1FF] =
      some (0xFE, 0x30, 0x0400, [0x01, 0x03, 0x30]) := by decide
/-- V-CT-13. -/
theorem test_nop : regsAfter (start [0xEA]) = some (0, 0, 0, 0xFD, 0x20, 0x0301) := by decide
/-- V-DX-1. -/
theorem test_print :
    memAfter (start [0x03, 0xA3, 0x00] [(0x00A3, 0x0A)] (diagConfig .implied)) [0xA3] =
      some (0x0303, [.print 0x00A3 0x0A], [0x0A]) := by decide
/-- V-DX-2, V-DX-3. -/
theorem test_exit_immediate :
    (after (start [0x02, 0x01] [] (diagConfig .immediate))).map (fun t => (t.pc, t.rs)) = some (0x0302, .halted 0x01) := by
  decide
theorem test_exit_implied :
    (after (start [0x02] [] (diagConfig .implied))).map (fun t => (t.pc, t.rs)) = some (0x0301, .halted 0x00) := by decide

/-! ### Unrecognized bytes, overflow, interrupts, host -/

/-- V-BAD-2. -/
theorem test_bad_opcode :
    memAfter (start [0x60, 0x12, 0x34]) [] = some (0x0301, [.badOpcode 0x0300 0x60], []) := by decide
/-- V-OV-2. -/
theorem test_overflow_fault :
    (after { start [] [(0xFFFE, 0xA9), (0xFFFF, 0x77)] faultConfig with pc := 0xFFFE }).map (fun t => (t.pc, t.a, t.rs)) =
      some (0xFFFE, 0x00, .faulted (.addressOverflow 0xFFFF)) := by decide
/-- V-OV-3. -/
theorem test_overflow_wrap :
    memAfter { start [] [(0xFFFE, 0x8D), (0xFFFF, 0x34), (0x0000, 0x12)] with pc := 0xFFFE, a := 0x77 } [0x1234] =
      some (0x0001, [], [0x77]) := by decide
/-- V-OV-6: the rollback of the padding skip. -/
theorem test_overflow_padding :
    stackAfter { start [] [(0xFFFF, 0x04)] { faultConfig with brkSkipsPadding := true } with pc := 0xFFFE } [0x1FD] =
      some (0xFD, 0x20, 0xFFFE, [0x00]) := by decide
/-- V-OV-7. -/
theorem test_overflow_not_without_padding :
    stackAfter { start [] [(0xFFFF, 0x04)] faultConfig with pc := 0xFFFE } [0x1FB, 0x1FC, 0x1FD] =
      some (0xFA, 0x30, 0x0400, [0x30, 0xFF, 0xFF]) := by decide

/-- SI of 95_test_vectors.md. -/
def interruptStart (c : Config) : State :=
  { State.reset with pc := 0x0210, mem := [(0xFFFB, 0x04), (0xFFFD, 0x02), (0xFFFF, 0x03)], cfg := c }

/-- V-INT-3: masked, not kept pending. -/
theorem test_irq_masked :
    hostInterrupt .irq { interruptStart { Config.defaults with irqMaskedByI := true } with sr := 0x24 } =
      { interruptStart { Config.defaults with irqMaskedByI := true } with sr := 0x24 } := by decide
/-- V-INT-6. -/
theorem test_nmi_sets_i :
    let t := hostInterrupt .nmi (interruptStart { Config.defaults with interruptSetsI := true })
    (t.sp, t.sr, t.pc, [0x1FD, 0x1FC, 0x1FB].map t.mem.read) = (0xFA, 0x24, 0x0400, [0x02, 0x10, 0x20]) := by decide
/-- V-INT-12. -/
theorem test_irq_wraps :
    let t := hostInterrupt .irq { interruptStart Config.defaults with sp := 0x01 }
    (t.sp, t.sr, t.pc, [0x101, 0x100, 0x1FF].map t.mem.read) = (0xFE, 0x20, 0x0300, [0x02, 0x10, 0x20]) := by decide
/-- V-INT-9. -/
theorem test_reset :
    let t := hostReset { interruptStart Config.defaults with a := 5, x := 6, y := 7, sp := 0x80, sr := 0xFF }
    (t.a, t.x, t.y, t.sp, t.sr, t.pc) = (0, 0, 0, 0xFD, 0x20, 0x0200) ∧ t.mem = (interruptStart Config.defaults).mem := by
  decide
/-- V-HM-5. -/
theorem test_load_range_byte_by_byte :
    let t := hostLoadRange 0x00FE [0xAA, 0xBB, 0xCC] .unpriv (start [])
    (t.mem.read 0xFE, t.mem.read 0xFF, t.mem.read 0x100, t.dl) = (0xAA, 0xBB, 0x00, [.writeRejected 0x0100 0xCC]) := by
  decide
/-- V-OV-5, under fault. -/
theorem test_load_range_refused :
    hostLoadRange 0xFFFE [1, 2, 3] .priv (start [] [] faultConfig) = start [] [] faultConfig := by decide
/-- V-RUN-2, V-RUN-3. -/
theorem test_run_to_end_first_test :
    runToEnd 5 { start [] with pc := 0xFFFF } = .next (.stopped { start [] with pc := 0xFFFF }) := rfl
theorem test_run_to_end_one_step :
    runToEnd 1 { start [] [(0xFFFE, 0xEA)] with pc := 0xFFFE } =
      .next (.stopped { start [] [(0xFFFE, 0xEA)] with pc := 0xFFFF, loc := 0xFFFE }) := rfl

/-! ### Witnesses: states and operands that meet the hypotheses of each statement -/

theorem witness_DecodeOfEncodeIsInstruction :
    (Config.wf Config.defaults = true ∧ Instr.wf Config.defaults (.staAbs 0xFFFF) = true) ∧
    (Config.wf (diagConfig .implied) = true ∧ Instr.wf (diagConfig .implied) (.exit none) = true) ∧
    (Config.wf (diagConfig .immediate) = true ∧ Instr.wf (diagConfig .immediate) (.exit (some 0xFF)) = true ∧
      Instr.wf (diagConfig .immediate) (.print 0x0000) = true) := by decide
theorem witness_DecodedBytesAreTheEncoding : decode Config.defaults [0x8D, 0x00, 0x01, 0xEA] = .ok (.staAbs 0x0100) [0xEA] := by
  decide
theorem witness_ThirtyFourOpcodesRecognized : Config.defaults.diagExt = false ∧ isTableOpcode 0x00 = true := by decide
theorem witness_LengthIsFixedByOpcode :
    decode Config.defaults (0xA9 :: [0x00]) = .ok (.ldaImm 0x00) [] ∧
    decode Config.defaults (0xA9 :: [0xFF, 0x01]) = .ok (.ldaImm 0xFF) [0x01] := by decide

/-- A machine about to fetch at the top of memory. -/
def atTop (pc : Word) (cells : List (Word × Byte)) (c : Config) : State := { start [] cells c with pc := pc }

/-- A one-byte instruction whose last byte is at 0xFFFE under fault, and at 0xFFFF under wrap; each execution ends
Running. -/
theorem witness_StepRunsTheDecodedInstruction :
    (let s := atTop 0xFFFE [(0xFFFE, 0xEA)] faultConfig
     s.rs = .running ∧ decode s.cfg (codeBytes s) = .ok .nop [0x00, 0x00] ∧ fetchOverflows Instr.nop.length s = false) ∧
    (let s := atTop 0xFFFF [(0xFFFF, 0xEA)] Config.defaults
     s.rs = .running ∧ decode s.cfg (codeBytes s) = .ok .nop [0x00, 0x00] ∧ fetchOverflows Instr.nop.length s = false) := by
  decide
/-- An execution that ends in Faulted: JMP (ind) at pointer 0xFFFF. -/
theorem witness_StepRunsTheDecodedInstruction_faulted :
    let s := start [0x6C, 0xFF, 0xFF] [] faultConfig
    s.rs = .running ∧ decode s.cfg (codeBytes s) = .ok (.jmpInd 0xFFFF) [] ∧
    fetchOverflows (Instr.jmpInd 0xFFFF).length s = false ∧
    ∃ t, exec (.jmpInd 0xFFFF) { s with loc := s.pc, pc := s.pc + 3 } = .next t ∧
      t.rs = .faulted (.addressOverflow 0xFFFF) := ⟨by decide, by decide, by decide, _, rfl, rfl⟩
theorem witness_UnrecognizedOpcodeIsReportedAndSkipped :
    (let s := atTop 0xFFFF [(0xFFFF, 0xFF)] Config.defaults
     s.rs = .running ∧ (dispatch s.cfg (s.mem.read s.pc.toNat)).isNone = true ∧ fetchOverflows 1 s = false) ∧
    (let s := atTop 0xFFFE [(0xFFFE, 0xFF)] faultConfig
     s.rs = .running ∧ (dispatch s.cfg (s.mem.read s.pc.toNat)).isNone = true ∧ fetchOverflows 1 s = false) := by decide
theorem witness_FetchPastTheTopFaults :
    (let s := atTop 0xFFFF [(0xFFFF, 0xEA)] faultConfig
     s.rs = .running ∧ s.cfg.addrOverflow = .fault ∧ decode s.cfg (codeBytes s) = .ok .nop [0x00, 0x00] ∧
       65536 ≤ s.pc.toNat + Instr.nop.length) ∧
    (let s := { atTop 0xFFFD [] faultConfig with mem := [(0xFFFD, 0x8D)] }
     decode s.cfg (codeBytes s) = .ok (.staAbs 0x0000) [] ∧ 65536 ≤ s.pc.toNat + (Instr.staAbs 0x0000).length) ∧
    (let s := atTop 0xFFFF [(0xFFFF, 0xFF)] faultConfig
     (dispatch s.cfg (s.mem.read s.pc.toNat)).isNone = true ∧ s.pc = 0xFFFF) := by decide
theorem witness_FaultKeepsEverythingButRunState :
    ∃ s t, s.rs = .running ∧ step s = .next t ∧ t.rs = .faulted (.addressOverflow 0xFFFF) :=
  ⟨atTop 0xFFFF [(0xFFFF, 0xEA)] faultConfig, _, rfl, rfl, rfl⟩
theorem witness_TerminalStatesNeverChange :
    { State.reset with rs := .halted 0x00 }.rs ≠ .running ∧
    { State.reset with rs := .faulted (.addressOverflow 0xFFFF) }.rs ≠ .running := by decide
theorem witness_StepKeepsInvariant : State.inv (start [0x28]) = true ∧ ∃ t, step (start [0x28]) = .next t :=
  ⟨by decide, _, rfl⟩
theorem witness_CommandsKeepInvariant :
    State.inv (start [0x28]) = true ∧ (∃ t, transact (.set 0x0200 0x01 .unpriv) (start [0x28]) = .next t) ∧
    (∃ t, transact .reset (start [0x28]) = .next t) ∧ ∃ t, transact (.runFor 2) (start [0x28]) = .next t :=
  ⟨by decide, ⟨_, rfl⟩, ⟨_, rfl⟩, ⟨_, rfl⟩⟩
theorem witness_ConstructionHonoursResetVector :
    Config.wf Config.defaults = true ∧ (List.replicate 65536 (0x00 : Byte)).length ≤ 65536 :=
  ⟨by decide, by rw [List.length_replicate]⟩
theorem witness_ConstructionRefusesCallerErrors :
    (diagConfig .implied).diagExt = true ∧ { diagConfig .implied with exitOpcode := none }.exitOpcode = none ∧
    { diagConfig .implied with printOpcode := none }.printOpcode = none ∧
    { diagConfig .implied with printOpcode := some 0x02 }.exitOpcode = some 0x02 ∧
    isTableOpcode 0xA9 = true := by decide
theorem witness_ConstructionRefusesCallerErrors_image :
    Config.wf Config.defaults = true ∧ 65536 < (List.replicate 65537 (0x00 : Byte)).length :=
  ⟨by decide, by rw [List.length_replicate]; decide⟩
/-- For the statements whose hypothesis is RS = Running: ResetRestoresPowerOnValues, HostBrkSetsBreakThenVectors,
UnknownInterruptIsOnlyReported, HostSetIsOneWrite. -/
theorem witness_running : (start []).rs = .running := by decide
theorem witness_ProgramsNeverChangeRom :
    (∃ t, transact .step (start [0x8D, 0x00, 0xFF]) = .next t) ∧ (∃ t, transact .reset (start []) = .next t) ∧
    (∃ t, transact (.interrupt .nmi) (start []) = .next t) ∧ ∃ t, transact (.runFor 1) (start [0xEA]) = .next t :=
  ⟨⟨_, rfl⟩, ⟨_, rfl⟩, ⟨_, rfl⟩, ⟨_, rfl⟩⟩
/-- The stack page's first and last byte change. -/
theorem witness_OnlyPushesChangeTheStackPage :
    (∃ t, step { start [0x48] with a := 0x02, sp := 0x00 } = .next t ∧ t.mem.read 0x100 ≠ (start [0x48]).mem.read 0x100) ∧
    (∃ t, step { start [0x48] with a := 0x02, sp := 0xFF } = .next t ∧ t.mem.read 0x1FF ≠ (start [0x48]).mem.read 0x1FF) :=
  ⟨⟨_, rfl, by decide⟩, ⟨_, rfl, by decide⟩⟩
theorem witness_OverflowAndBreakFlagLifetimes :
    (∃ t, step { start [0x28] [(0x01FD, 0x40)] with sp := 0xFC } = .next t ∧ bit 0x20 6 = false ∧ bit t.sr 6 = true) ∧
    (∃ t, step { start [0x28] with sp := 0xFC, sr := 0x30 } = .next t ∧ bit 0x30 4 = true ∧ bit t.sr 4 = false) ∧
    (∃ t, step (start [0x00]) = .next t ∧ bit 0x20 4 = false ∧ bit t.sr 4 = true) :=
  ⟨⟨_, rfl, by decide, by decide⟩, ⟨_, rfl, by decide, by decide⟩, ⟨_, rfl, by decide, by decide⟩⟩
/-- For AtMostOneDiagnosticPerStep and LogAndLatchAreUnreadable: one step for each way DL grows, and one that leaves
it. -/
theorem witness_AtMostOneDiagnosticPerStep :
    (∃ t, step (start [0xEA]) = .next t ∧ t.dl = []) ∧ (∃ t, step (start [0xFF]) = .next t ∧ t.dl = [.badOpcode 0x0300 0xFF]) ∧
    (∃ t, step (start [0x8D, 0x00, 0x01]) = .next t ∧ t.dl = [.writeRejected 0x0100 0x00]) ∧
    (∃ t, step (start [0x03, 0x00, 0x00] [] (diagConfig .implied)) = .next t ∧ t.dl = [.print 0x0000 0x00]) :=
  ⟨⟨_, rfl, rfl⟩, ⟨_, rfl, rfl⟩, ⟨_, rfl, rfl⟩, ⟨_, rfl, rfl⟩⟩
theorem witness_DecimalFlagHasNoEffect :
    Instr.adcImm 0x09 ≠ .php ∧ Instr.adcImm 0x09 ≠ .brk ∧ OnlyBits [3] 0x20 0x28 ∧
    ∃ t, exec (.adcImm 0x09) { start [] with a := 0x09 } = .next t :=
  ⟨by decide, by decide, by unfold OnlyBits; decide, _, rfl⟩
/-- For the two statements OnlyNamedInstructionsWriteEach… -/
theorem witness_OnlyNamedInstructionsWriteEachRegister : ∃ t, exec .pla (start []) = .next t := ⟨_, rfl⟩
theorem witness_BitPrimitiveLaws : 7 < 8 ∧ 0 < 8 ∧ 0 ≠ 7 ∧ 15 < 16 ∧ 8 < 16 ∧ 8 ≠ 15 := by decide
/-- The refused pages begin and end where Stored says. -/
theorem witness_WriteIsAcceptedOrRefused :
    [0x00FF, 0x0100, 0x01FF, 0x0200, 0xFEFF, 0xFF00, 0xFFFF].map isProtected =
      [false, true, true, false, false, true, true] := by decide
theorem witness_LdaLoadsTheImmediate :
    Config.defaults.ldaSetsZN = true ∧ { Config.defaults with ldaSetsZN := false }.ldaSetsZN = false := by decide
/-- For TSX, TXS and their round trip. -/
theorem witness_TsxPullsOrCopies :
    Config.defaults.tsxTxsMode = .stackPath ∧ { Config.defaults with tsxTxsMode := .direct }.tsxTxsMode = .direct := by decide
theorem witness_PlaPullsTheAccumulator :
    Config.defaults.plaSetsZN = true ∧ { Config.defaults with plaSetsZN := false }.plaSetsZN = false := by decide
/-- The three clauses of JMP (ind); the second at the pointers on both sides of the boundary. -/
theorem witness_JmpIndirectReadsThePointer :
    { Config.defaults with jmpIndPageWrap := true }.jmpIndPageWrap = true ∧
    (Config.defaults.jmpIndPageWrap = false ∧ Config.defaults.addrOverflow = .wrap) ∧
    (faultConfig.jmpIndPageWrap = false ∧ (0xFFFE : Word) ≠ 0xFFFF ∧ faultConfig.addrOverflow = .fault) := by decide
/-- The three clauses of BRK; PC is past the opcode byte. -/
theorem witness_BrkTakesTheInterruptSequence :
    Config.defaults.brkSkipsPadding = false ∧
    (let s := atTop 0xFFFE [] { faultConfig with brkSkipsPadding := true }
     s.cfg.brkSkipsPadding = true ∧ s.pc ≠ 0xFFFF) ∧
    (let s := atTop 0xFFFF [] { faultConfig with brkSkipsPadding := true }
     s.cfg.brkSkipsPadding = true ∧ s.pc = 0xFFFF ∧ s.cfg.addrOverflow = .fault) := by decide
/-- The hypotheses of Runs, for one row of each length, without and with the fetch passing the top. -/
theorem witness_Runs :
    (start [0xA9, 0x80]).rs = .running ∧ codeBytes (start [0xA9, 0x80]) = [0xA9, 0x80] ++ [0x00] ∧
    codeBytes (start [0xEA]) = [0xEA] ++ [0x00, 0x00] ∧ codeBytes (start [0x8D, 0x00, 0x02]) = [0x8D, 0x00, 0x02] ++ [] ∧
    (let s := atTop 0xFFFE [(0xFFFE, 0xA9)] faultConfig
     codeBytes s = [0xA9, 0x00] ++ [0x00] ∧ s.cfg.addrOverflow = .fault ∧ 65536 ≤ s.pc.toNat + 2) := by decide
/-- The configurations RunsAs asks for in PRINT and in the two forms of EXIT, and a machine with those bytes. -/
theorem witness_PrintEmitsTheByte :
    (let s := start [0x03, 0xA3, 0x00] [] (diagConfig .implied)
     Config.wf s.cfg = true ∧ s.cfg.diagExt = true ∧ s.cfg.printOpcode = some 0x03 ∧ s.rs = .running ∧
       codeBytes s = [0x03, lo 0x00A3, hi 0x00A3] ++ []) := by decide
theorem witness_ExitHalts :
    (let s := start [0x02] [] (diagConfig .implied)
     Config.wf s.cfg = true ∧ s.cfg.diagExt = true ∧ s.cfg.exitOpcode = some 0x02 ∧ s.cfg.exitFormat = some .implied ∧
       s.rs = .running ∧ codeBytes s = [0x02] ++ [0x00, 0x00]) ∧
    (let s := start [0x02, 0x01] [] (diagConfig .immediate)
     Config.wf s.cfg = true ∧ s.cfg.diagExt = true ∧ s.cfg.exitOpcode = some 0x02 ∧ s.cfg.exitFormat = some .immediate ∧
       s.rs = .running ∧ codeBytes s = [0x02, 0x01] ++ [0x00]) := by decide
theorem witness_NmiAndIrqTakeTheirVectors :
    (let s := interruptStart Config.defaults
     s.rs = .running ∧ ¬(s.cfg.irqMaskedByI = true ∧ bit s.sr 2 = true)) ∧
    (let s := { interruptStart { Config.defaults with irqMaskedByI := true } with sr := 0x24 }
     s.rs = .running ∧ s.cfg.irqMaskedByI = true ∧ bit s.sr 2 = true) := by decide
/-- A range that passes the top by one byte, and one that just fits. -/
theorem witness_LoadRangeIsByteByByte :
    (start [] [] faultConfig).rs = .running ∧ faultConfig.addrOverflow = .fault ∧
    65536 < (0xFFFE : Word).toNat + ([2, 3].length + 1) ∧ (0xFFFE : Word).toNat + ([2].length + 1) ≤ 65536 := by decide
theorem witness_RunToEndStopsAtTheTop :
    ({ start [] with pc := 0xFFFF }.pc = 0xFFFF ∧ { start [] with rs := .halted 0x00 }.rs ≠ .running) ∧
    (∃ t, runToEnd 1 { start [] [(0xFFFE, 0xEA)] with pc := 0xFFFE } = .next (.stopped t)) ∧
    ∃ t, runToEnd 1 (start [0x4C, 0x00, 0x03]) = .next (.outOfFuel t) :=
  ⟨by decide, ⟨_, rfl⟩, ⟨_, rfl⟩⟩

end Sys2Proof.Tests
end

/-! PROOFS. The family of 10_state.md: what an execution may write, the invariant, the flags' lifetimes, the log and
the latch, and the terminal run states. -/
namespace Sys2Proof.Machine

section StateFamily

open Sys2Proof.Says

/-! ### The elements of the state, and what an execution may write

`mayWrite` is the write set of each instruction, and `KeepsOutside` the frame it leaves. There is one rule per state
operation; the frame of an instruction is a chain of them (`exec_keepsOutside_mayWrite`). -/

/-- The pieces of the state that an instruction may write; SR is taken bit by bit. -/
inductive Element
  | a | x | y | sp | pc | flag (n : Nat) | rs | dl | mem

/-- Z and N. -/
def znFlags : List Element := [.flag bitZ, .flag bitN]

/-- What the execution of an instruction may write, in the order of the opcode table. -/
def mayWrite (c : Config) : Instr → List Element
  | .ldaImm _ => .a :: if c.ldaSetsZN = true then znFlags else []
  | .staZp _ | .stxZp _ | .styZp _ => [.mem]
  | .staAbs _ => [.mem, .dl]
  | .adcImm _ | .adcZp _ | .adcAbs _ | .aslA => .a :: .flag bitC :: znFlags
  | .tax | .inx | .dex => .x :: znFlags
  | .tay | .iny | .dey => .y :: znFlags
  | .txa | .tya => .a :: znFlags
  | .tsx => .x :: .sp :: znFlags
  | .txs | .pha | .php => [.sp, .mem]
  | .pla => .a :: .sp :: if c.plaSetsZN = true then znFlags else []
  | .plp => .sp :: (List.range 8).map .flag
  | .clc | .sec => [.flag bitC]
  | .cli | .sei => [.flag bitI]
  | .clv => [.flag bitV]
  | .cld | .sed => [.flag bitD]
  | .jmpAbs _ => [.pc]
  | .jmpInd _ => .pc :: if c.addrOverflow = .fault then [.rs] else []
  | .brk =>
    .sp :: .mem :: .pc :: .flag bitB :: ((if c.interruptSetsI = true then [.flag bitI] else []) ++
      if c.brkSkipsPadding = true ∧ c.addrOverflow = .fault then [.rs] else [])
  | .nop => []
  | .print _ => [.dl]
  | .exit _ => [.rs]

/-- `t` is `s` but for the listed elements. L, the configuration and the model's counter are never among them. -/
structure KeepsOutside (es : List Element) (s t : State) : Prop where
  a : t.a = s.a ∨ .a ∈ es
  x : t.x = s.x ∨ .x ∈ es
  y : t.y = s.y ∨ .y ∈ es
  sp : t.sp = s.sp ∨ .sp ∈ es
  pc : t.pc = s.pc ∨ .pc ∈ es
  flag : ∀ n < 8, bit t.sr n = bit s.sr n ∨ .flag n ∈ es
  rs : t.rs = s.rs ∨ .rs ∈ es
  dl : t.dl = s.dl ∨ .dl ∈ es
  mem : t.mem = s.mem ∨ .mem ∈ es
  loc : t.loc = s.loc
  cfg : t.cfg = s.cfg
  freeCount : t.freeCount = s.freeCount

namespace KeepsOutside

variable {es : List Element} {s t : State}

theorem refl (es : List Element) (s : State) : KeepsOutside es s s where
  a := .inl rfl
  x := .inl rfl
  y := .inl rfl
  sp := .inl rfl
  pc := .inl rfl
  flag _ _ := .inl rfl
  rs := .inl rfl
  dl := .inl rfl
  mem := .inl rfl
  loc := rfl
  cfg := rfl
  freeCount := rfl

variable (k : KeepsOutside es s t)
include k

theorem after_setA (v : Byte) (h : .a ∈ es := by simp [mayWrite]) : KeepsOutside es s (setA v t) :=
  { k with a := .inr h }

theorem after_setX (v : Byte) (h : .x ∈ es := by simp [mayWrite]) : KeepsOutside es s (setX v t) :=
  { k with x := .inr h }

theorem after_setY (v : Byte) (h : .y ∈ es := by simp [mayWrite]) : KeepsOutside es s (setY v t) :=
  { k with y := .inr h }

theorem after_setSP (v : Byte) (h : .sp ∈ es := by simp [mayWrite]) : KeepsOutside es s (setSP v t) :=
  { k with sp := .inr h }

theorem after_setPC (v : Word) (h : .pc ∈ es := by simp [mayWrite]) : KeepsOutside es s (setPC v t) :=
  { k with pc := .inr h }

theorem after_raise (f : Fault) (h : .rs ∈ es := by simp [mayWrite, *]) : KeepsOutside es s (raise f t) :=
  { k with rs := .inr h }

theorem after_halt (status : Byte) (h : .rs ∈ es := by simp [mayWrite]) : KeepsOutside es s (halt status t) :=
  { k with rs := .inr h }

theorem after_emit (e : Event) (h : .dl ∈ es := by simp [mayWrite]) : KeepsOutside es s (emit e t) :=
  { k with dl := .inr h }

/-- A write of SR that agrees with the old SR in every bit but the listed ones. -/
theorem after_setSR (v : Byte) (h : ∀ n < 8, v.getLsbD n = t.sr.getLsbD n ∨ .flag n ∈ es) :
    KeepsOutside es s (setSR v t) :=
  { k with
    flag := fun n hn => (h n hn).elim (fun e => (k.flag n hn).imp_left fun e' => e.trans e') .inr }

theorem after_setFlag (n : Nat) (b : Bool) (hn : n < 8) (h : .flag n ∈ es := by simp [mayWrite]) :
    KeepsOutside es s (setFlag n b t) :=
  k.after_setSR _ fun m _ => by
    rw [getLsbD_putBit _ _ _ _ hn]
    split
    · next e => exact .inr (e ▸ h)
    · exact .inl rfl

theorem after_setZN (v : Byte) (hz : .flag bitZ ∈ es := by simp [mayWrite, znFlags, *])
    (hn : .flag bitN ∈ es := by simp [mayWrite, znFlags, *]) : KeepsOutside es s (setZN v t) :=
  k.after_setSR _ fun m _ => by
    rw [getLsbD_zeroNegative]
    split
    · next e => exact .inr (e ▸ hn)
    · split
      · next e => exact .inr (e ▸ hz)
      · exact .inl rfl

theorem after_setZNFor (m : ZnMnemonic) (r : Byte) (hz : .flag bitZ ∈ es := by simp [mayWrite, znFlags])
    (hn : .flag bitN ∈ es := by simp [mayWrite, znFlags]) : KeepsOutside es s (setZNFor m r t) :=
  k.after_setZN _ hz hn

theorem after_aluToA (r : AluResult) (ha : .a ∈ es := by simp [mayWrite])
    (hc : .flag bitC ∈ es := by simp [mayWrite]) (hz : .flag bitZ ∈ es := by simp [mayWrite, znFlags])
    (hn : .flag bitN ∈ es := by simp [mayWrite, znFlags]) : KeepsOutside es s (aluToA r t) :=
  ((k.after_setA r.res ha).after_setSR (putCarry r.cout t.sr) fun m _ => by
    rw [getLsbD_putCarry]
    split
    · next e => exact .inr (e ▸ hc)
    · exact .inl rfl).after_setZN r.res hz hn

theorem after_memWrite (addr : Word) (v : Byte) (p : Privilege) (hm : .mem ∈ es := by simp [mayWrite])
    (hd : p = .priv ∨ isProtected addr = false ∨ .dl ∈ es) : KeepsOutside es s (memWrite addr v p t) := by
  rcases memWrite_cases t addr v p with ⟨hp, ha, e⟩ | ⟨-, e⟩ <;> rw [e]
  · simp only [hp, ha, reduceCtorEq, false_or] at hd
    exact { k with dl := .inr hd }
  · exact { k with mem := .inr hm }

theorem after_zeroPageWrite (zp v : Byte) (hm : .mem ∈ es := by simp [mayWrite]) :
    KeepsOutside es s (memWrite (zeroPageAddr zp) v .unpriv t) :=
  k.after_memWrite _ v .unpriv hm (.inr (.inl (isProtected_zeroPage zp)))

theorem after_push (v : Byte) (hs : .sp ∈ es := by simp [mayWrite]) (hm : .mem ∈ es := by simp [mayWrite]) :
    KeepsOutside es s (push v t) :=
  (k.after_memWrite _ v .priv hm (.inl rfl)).after_setSP _ hs

theorem after_pullSP (hs : .sp ∈ es := by simp [mayWrite]) : KeepsOutside es s (pullSP t) := k.after_setSP _ hs

theorem after_interruptSequence (vec : Word) (hs : .sp ∈ es := by simp [mayWrite])
    (hm : .mem ∈ es := by simp [mayWrite]) (hp : .pc ∈ es := by simp [mayWrite])
    (hi : t.cfg.interruptSetsI = true → .flag bitI ∈ es) : KeepsOutside es s (interruptSequence vec t) := by
  have pushed := ((k.after_push (highByte t.pc) hs hm).after_push (lowByte t.pc) hs hm).after_push t.sr hs hm
  refine after_setPC ?_ _ hp
  split
  · next h => exact pushed.after_setFlag bitI true (by decide) (hi h)
  · exact pushed

theorem after_brkSequence (hi : s.cfg.interruptSetsI = true → .flag bitI ∈ es)
    (hs : .sp ∈ es := by simp [mayWrite]) (hm : .mem ∈ es := by simp [mayWrite])
    (hp : .pc ∈ es := by simp [mayWrite]) (hb : .flag bitB ∈ es := by simp [mayWrite]) :
    KeepsOutside es s (brkSequence t) :=
  (k.after_setFlag bitB true (by decide) hb).after_interruptSequence irqVector hs hm hp
    fun h => hi (k.cfg ▸ h)

end KeepsOutside

/-! ### The instructions whose execution branches: an equation per branch, and the branches -/

theorem exec_ldaImm_of_setsZN {s : State} (v : Byte) (h : s.cfg.ldaSetsZN = true) :
    exec (.ldaImm v) s = .next (setZN v (setA v s)) := by
  simp [exec, execLdaImm, h]

theorem exec_ldaImm_of_keepsZN {s : State} (v : Byte) (h : s.cfg.ldaSetsZN = false) :
    exec (.ldaImm v) s = .next (setA v s) := by
  simp [exec, execLdaImm, h]

theorem exec_pla_of_setsZN {s : State} (h : s.cfg.plaSetsZN = true) :
    exec .pla s = .next (setZN (pullByte s) (setA (pullByte s) (pullSP s))) := by
  simp [exec, execPla, h]

theorem exec_pla_of_keepsZN {s : State} (h : s.cfg.plaSetsZN = false) :
    exec .pla s = .next (setA (pullByte s) (pullSP s)) := by
  simp [exec, execPla, h]

theorem exec_brk_of_no_padding {s : State} (hb : s.cfg.brkSkipsPadding = false) :
    exec .brk s = .next (brkSequence s) := by
  simp [exec, execBrk, hb]

theorem exec_brk_of_padding_ok {s : State} {pc : Word} (hb : s.cfg.brkSkipsPadding = true)
    (h : nextAddr s.pc s = .ok pc) : exec .brk s = .next (brkSequence (setPC pc s)) := by
  simp [exec, execBrk, hb, h]

theorem exec_brk_of_padding_error {s : State} {f : Fault} (hb : s.cfg.brkSkipsPadding = true)
    (h : nextAddr s.pc s = .error f) : exec .brk s = .next (raise f s) := by
  simp [exec, execBrk, hb, h]

/-- BRK runs the sequence with PC as it is or past the padding byte, or raises at the padding byte
(45_control_system.md R143). -/
theorem exec_brk_cases (s : State) :
    (s.cfg.brkSkipsPadding = false ∧ exec .brk s = .next (brkSequence s)) ∨
    (s.cfg.brkSkipsPadding = true ∧ ¬(s.pc = 0xFFFF ∧ s.cfg.addrOverflow = .fault) ∧
      exec .brk s = .next (brkSequence (setPC (s.pc + 1) s))) ∨
    (s.cfg.brkSkipsPadding = true ∧ s.pc = 0xFFFF ∧ s.cfg.addrOverflow = .fault ∧
      exec .brk s = .next (raise (.addressOverflow 0xFFFF) s)) := by
  cases hb : s.cfg.brkSkipsPadding with
  | false => exact .inl ⟨rfl, exec_brk_of_no_padding hb⟩
  | true =>
    rcases nextAddr_cases s s.pc with ⟨h, hn⟩ | ⟨h, hpc, hf⟩
    · exact .inr (.inl ⟨rfl, hn, exec_brk_of_padding_ok hb h⟩)
    · exact .inr (.inr ⟨rfl, hpc, hf, exec_brk_of_padding_error hb h⟩)

theorem exec_jmpInd_of_ok {ptr target : Word} {s : State} (h : pointerTarget ptr s = .ok target) :
    exec (.jmpInd ptr) s = .next (setPC target s) := by
  simp [exec, execJmpInd, h]

theorem exec_jmpInd_of_error {ptr : Word} {f : Fault} {s : State} (h : pointerTarget ptr s = .error f) :
    exec (.jmpInd ptr) s = .next (raise f s) := by
  simp [exec, execJmpInd, h]

/-- JMP (ind)'s target is read, or its pointer's increment is the machine's one fault (45_control_system.md R141). -/
theorem pointerTarget_cases (ptr : Word) (s : State) :
    (∃ target, pointerTarget ptr s = .ok target) ∨
    (s.cfg.jmpIndPageWrap = false ∧ ptr = 0xFFFF ∧ s.cfg.addrOverflow = .fault ∧
      pointerTarget ptr s = .error (.addressOverflow 0xFFFF)) := by
  cases hw : s.cfg.jmpIndPageWrap with
  | true => exact .inl (by simp [pointerTarget, pointerHighAddr, hw])
  | false =>
    rcases nextAddr_cases s ptr with ⟨h, -⟩ | ⟨h, hp, hf⟩
    · exact .inl (by simp [pointerTarget, pointerHighAddr, hw, h])
    · exact .inr ⟨rfl, hp, hf, by simp [pointerTarget, pointerHighAddr, hw, h]⟩

theorem exec_tsx_of_stackPath {s : State} (h : s.cfg.tsxTxsMode = .stackPath) :
    exec .tsx s = .next (setZNFor .tsx (pullByte s) (setX (pullByte s) (pullSP s))) := by
  simp [exec, execTsx, h]

theorem exec_tsx_of_direct {s : State} (h : s.cfg.tsxTxsMode = .direct) :
    exec .tsx s = .next (setZNFor .tsx s.sp (setX s.sp s)) := by
  simp [exec, execTsx, h]

theorem exec_txs_of_stackPath {s : State} (h : s.cfg.tsxTxsMode = .stackPath) :
    exec .txs s = .next (push s.x s) := by
  simp [exec, execTxs, h]

theorem exec_txs_of_direct {s : State} (h : s.cfg.tsxTxsMode = .direct) : exec .txs s = .next (setSP s.x s) := by
  simp [exec, execTxs, h]

/-! ### The frame of an execution -/

/-- What holds of an execution's answer holds of any state it answers. -/
theorem of_exec_next {P : State → Prop} {i : Instr} {s t : State} (hex : ∃ u, exec i s = .next u ∧ P u)
    (h : exec i s = .next t) : P t := by
  obtain ⟨u, hu, hP⟩ := hex
  rw [hu, Host.Outcome.next.injEq] at h
  exact h ▸ hP

theorem exec_exists_keepsOutside_mayWrite (i : Instr) (s : State) :
    ∃ t, exec i s = .next t ∧ KeepsOutside (mayWrite s.cfg i) s t := by
  have k := KeepsOutside.refl (mayWrite s.cfg i) s
  cases i with
  | ldaImm v =>
    cases hz : s.cfg.ldaSetsZN with
    | true => exact ⟨_, exec_ldaImm_of_setsZN v hz, (k.after_setA v).after_setZN v⟩
    | false => exact ⟨_, exec_ldaImm_of_keepsZN v hz, k.after_setA v⟩
  | staZp zp => exact ⟨_, rfl, k.after_zeroPageWrite zp s.a⟩
  | stxZp zp => exact ⟨_, rfl, k.after_zeroPageWrite zp s.x⟩
  | styZp zp => exact ⟨_, rfl, k.after_zeroPageWrite zp s.y⟩
  | staAbs addr => exact ⟨_, rfl, k.after_memWrite addr s.a .unpriv (hd := .inr (.inr (by simp [mayWrite])))⟩
  | adcImm _ | adcZp _ | adcAbs _ | aslA => exact ⟨_, rfl, k.after_aluToA _⟩
  | tax | inx | dex => exact ⟨_, rfl, (k.after_setX _).after_setZNFor _ _⟩
  | tay | iny | dey => exact ⟨_, rfl, (k.after_setY _).after_setZNFor _ _⟩
  | txa | tya => exact ⟨_, rfl, (k.after_setA _).after_setZNFor _ _⟩
  | tsx =>
    cases hm : s.cfg.tsxTxsMode with
    | stackPath => exact ⟨_, exec_tsx_of_stackPath hm, (k.after_pullSP.after_setX _).after_setZNFor _ _⟩
    | direct => exact ⟨_, exec_tsx_of_direct hm, (k.after_setX _).after_setZNFor _ _⟩
  | txs =>
    cases hm : s.cfg.tsxTxsMode with
    | stackPath => exact ⟨_, exec_txs_of_stackPath hm, k.after_push _⟩
    | direct => exact ⟨_, exec_txs_of_direct hm, k.after_setSP _⟩
  | pha | php => exact ⟨_, rfl, k.after_push _⟩
  | pla =>
    cases hz : s.cfg.plaSetsZN with
    | true => exact ⟨_, exec_pla_of_setsZN hz, (k.after_pullSP.after_setA _).after_setZN _⟩
    | false => exact ⟨_, exec_pla_of_keepsZN hz, k.after_pullSP.after_setA _⟩
  | plp => exact ⟨_, rfl, k.after_pullSP.after_setSR _ fun n hn => .inr (by simp [mayWrite, hn])⟩
  | clc | sec | cli | sei | clv | cld | sed => exact ⟨_, rfl, k.after_setFlag _ _ (by decide)⟩
  | jmpAbs addr => exact ⟨_, rfl, k.after_setPC addr⟩
  | jmpInd ptr =>
    rcases pointerTarget_cases ptr s with ⟨target, h⟩ | ⟨-, -, hf, h⟩
    · exact ⟨_, exec_jmpInd_of_ok h, k.after_setPC target⟩
    · exact ⟨_, exec_jmpInd_of_error h, k.after_raise _⟩
  | brk =>
    have hi : s.cfg.interruptSetsI = true → .flag bitI ∈ mayWrite s.cfg .brk := fun h => by simp [mayWrite, h]
    rcases exec_brk_cases s with ⟨-, e⟩ | ⟨-, -, e⟩ | ⟨hb, -, hf, e⟩
    · exact ⟨_, e, k.after_brkSequence hi⟩
    · exact ⟨_, e, (k.after_setPC _).after_brkSequence hi⟩
    · exact ⟨_, e, k.after_raise _⟩
  | nop => exact ⟨_, rfl, k⟩
  | print addr => exact ⟨_, rfl, k.after_emit _⟩
  | exit status => exact ⟨_, rfl, k.after_halt _⟩

/-- An execution leaves every element outside its instruction's write set as it was. -/
theorem exec_keepsOutside_mayWrite {i : Instr} {s t : State} (h : exec i s = .next t) :
    KeepsOutside (mayWrite s.cfg i) s t :=
  of_exec_next (exec_exists_keepsOutside_mayWrite i s) h

/-- Settles O25: the lists of the statement are the columns of the write sets `mayWrite`. -/
theorem onlyNamedInstructionsWriteEachRegister : Obligations.OnlyNamedInstructionsWriteEachRegister := by
  intro i s t h
  have k := exec_keepsOutside_mayWrite h
  refine ⟨k.a.imp_right ?_, k.x.imp_right ?_, k.y.imp_right ?_, k.sp.imp_right ?_, k.pc.imp_right ?_,
    k.mem.imp (fun e a => by rw [e]) ?_, k.dl.imp_right ?_, k.rs.imp_right ?_, k.loc, k.cfg, k.freeCount⟩
  all_goals cases i <;> simp +contextual [mayWrite, znFlags]

/-- Only PLP's write set holds the unused bit of SR. -/
theorem eq_plp_of_unused_mem_mayWrite {c : Config} {i : Instr} : .flag bitUnused ∈ mayWrite c i → i = .plp := by
  cases i <;> simp [mayWrite, znFlags, bitC, bitZ, bitI, bitD, bitB, bitUnused, bitV, bitN]

/-- Only CLV and PLP have V in their write sets. -/
theorem eq_clv_or_plp_of_overflow_mem_mayWrite {c : Config} {i : Instr} :
    .flag bitV ∈ mayWrite c i → i = .clv ∨ i = .plp := by
  cases i <;> simp [mayWrite, znFlags, bitC, bitZ, bitI, bitD, bitB, bitV, bitN]

/-- Only BRK and PLP have B in their write sets. -/
theorem eq_brk_or_plp_of_break_mem_mayWrite {c : Config} {i : Instr} :
    .flag bitB ∈ mayWrite c i → i = .brk ∨ i = .plp := by
  cases i <;> simp [mayWrite, znFlags, bitC, bitZ, bitI, bitD, bitB, bitV, bitN]

/-- PLP forces bit 5 to 1 (44_stack_flags.md R130). -/
theorem exec_plp_unused {s t : State} (h : exec .plp s = .next t) : bit t.sr 5 = true := by
  refine of_exec_next (P := fun u => bit u.sr 5 = true) ⟨_, rfl, ?_⟩ h
  simp [bit]

/-- Settles O26: the lists of the statement are the columns of the write sets `mayWrite`; PLP forces bit 5 to 1. -/
theorem onlyNamedInstructionsWriteEachFlag : Obligations.OnlyNamedInstructionsWriteEachFlag := by
  intro i s t h
  have k := exec_keepsOutside_mayWrite h
  refine ⟨(k.flag 0 (by decide)).imp_right ?_, fun n hn => (k.flag n (by omega)).imp_right ?zn,
    (k.flag 2 (by decide)).imp_right ?_, (k.flag 3 (by decide)).imp_right ?_,
    (k.flag 4 (by decide)).imp_right eq_brk_or_plp_of_break_mem_mayWrite,
    (k.flag 5 (by decide)).imp_right fun hm => ?unused,
    (k.flag 6 (by decide)).imp_right eq_clv_or_plp_of_overflow_mem_mayWrite⟩
  case unused =>
    obtain rfl := eq_plp_of_unused_mem_mayWrite hm
    exact ⟨rfl, exec_plp_unused h⟩
  case' zn => rcases hn with rfl | rfl
  all_goals cases i <;> simp [mayWrite, znFlags, bitC, bitZ, bitI, bitD, bitB, bitV, bitN]

/-! ### The invariant (10_state.md R31) -/

theorem inv_iff {s : State} : s.inv = true ↔ s.mem.wf = true ∧ bit s.sr 5 = true := by
  simp only [State.inv, Bool.and_eq_true]
  rfl

/-- An operation that writes neither memory nor SR keeps the invariant. -/
theorem inv_of_mem_sr_eq {s t : State} (hm : t.mem = s.mem) (hsr : t.sr = s.sr) (h : s.inv = true) : t.inv = true := by
  rw [inv_iff] at h ⊢
  exact ⟨hm ▸ h.1, hsr ▸ h.2⟩

/-- Bit `k` of SR after bit `n` is written (00_scope.md R12). -/
theorem bit_setFlag (s : State) (n k : Nat) (b : Bool) (hn : n < 8) :
    bit (setFlag n b s).sr k = if k = n then b else bit s.sr k :=
  getLsbD_putBit s.sr n k b hn

theorem push_mem_wf (v : Byte) {s : State} (h : s.mem.wf = true) : (push v s).mem.wf = true :=
  memWrite_wf s _ v .priv h

theorem interruptSequence_mem_wf (vec : Word) {s : State} (h : s.mem.wf = true) :
    (interruptSequence vec s).mem.wf = true := by
  rw [interruptSequence_eq]
  exact framedMem_wf s h

/-- Every execution keeps memory in canonical form: a store, a push or the interrupt sequence writes it by bytes. -/
theorem exec_mem_wf {i : Instr} {s t : State} (hw : s.mem.wf = true) (h : exec i s = .next t) : t.mem.wf = true := by
  have unwritten : .mem ∉ mayWrite s.cfg i → ∃ u, exec i s = .next u ∧ u.mem.wf = true := fun hm =>
    ⟨t, h, ((exec_keepsOutside_mayWrite h).mem.resolve_right hm).symm ▸ hw⟩
  refine of_exec_next (P := fun u => u.mem.wf = true) ?_ h
  cases i with
  | staZp _ | staAbs _ | stxZp _ | styZp _ => exact ⟨_, rfl, memWrite_wf s _ _ .unpriv hw⟩
  | pha | php => exact ⟨_, rfl, push_mem_wf _ hw⟩
  | txs =>
    cases hm : s.cfg.tsxTxsMode with
    | stackPath => exact ⟨_, exec_txs_of_stackPath hm, push_mem_wf _ hw⟩
    | direct => exact ⟨_, exec_txs_of_direct hm, hw⟩
  | brk =>
    rcases exec_brk_cases s with ⟨-, e⟩ | ⟨-, -, e⟩ | ⟨-, -, -, e⟩
    · exact ⟨_, e, interruptSequence_mem_wf irqVector hw⟩
    · exact ⟨_, e, interruptSequence_mem_wf irqVector hw⟩
    · exact ⟨_, e, hw⟩
  | _ => exact unwritten (by simp [mayWrite, znFlags])

theorem exec_inv {i : Instr} {s t : State} (hs : s.inv = true) (h : exec i s = .next t) : t.inv = true := by
  obtain ⟨hw, h5⟩ := inv_iff.mp hs
  refine inv_iff.mpr ⟨exec_mem_wf hw h, ?_⟩
  rcases (exec_keepsOutside_mayWrite h).flag 5 (by decide) with e | hm
  · exact e.trans h5
  · obtain rfl := eq_plp_of_unused_mem_mayWrite hm
    exact exec_plp_unused h

/-- Settles O12, from `exec_inv` and the cases of a step. -/
theorem stepKeepsInvariant : Obligations.StepKeepsInvariant := by
  intro s t hs h
  rcases step_cases h with ⟨-, rfl⟩ | ⟨-, -, rfl⟩ | ⟨-, -, rfl⟩ | ⟨-, i, rest, -, he, -⟩
  · exact hs
  · exact inv_of_mem_sr_eq rfl rfl hs
  · exact inv_of_mem_sr_eq rfl rfl hs
  · exact exec_inv (s := fetchedState i.length s) (inv_of_mem_sr_eq rfl rfl hs) he

theorem step_cfg {s t : State} (h : step s = .next t) : t.cfg = s.cfg := by
  rcases step_cases h with ⟨-, rfl⟩ | ⟨-, -, rfl⟩ | ⟨-, -, rfl⟩ | ⟨-, i, rest, -, he, -⟩
  · rfl
  · rfl
  · rfl
  · exact (exec_keepsOutside_mayWrite he).cfg

/-! ### The invariant under the host's commands -/

/-- An operation keeps the invariant and the configuration. -/
def KeepsInvAndCfg (effect : State → State) : Prop :=
  ∀ s : State, s.inv = true → (effect s).inv = true ∧ (effect s).cfg = s.cfg

theorem whileRunning_cases (effect : State → State) (s : State) :
    (s.rs = .running ∧ whileRunning effect s = effect s) ∨ (s.rs ≠ .running ∧ whileRunning effect s = s) := by
  cases h : s.rs <;> simp [whileRunning, h]

theorem KeepsInvAndCfg.whileRunning {effect : State → State} (he : KeepsInvAndCfg effect) :
    KeepsInvAndCfg (whileRunning effect) := by
  intro s hs
  rcases whileRunning_cases effect s with ⟨-, e⟩ | ⟨-, e⟩ <;> rw [e]
  · exact he s hs
  · exact ⟨hs, rfl⟩

theorem keepsInvAndCfg_memWrite (addr : Word) (v : Byte) (p : Privilege) : KeepsInvAndCfg (memWrite addr v p) := by
  intro s hs
  obtain ⟨hw, h5⟩ := inv_iff.mp hs
  refine ⟨inv_iff.mpr ⟨memWrite_wf s addr v p hw, ?_⟩, ?_⟩ <;> rw [memWrite_frame]
  exact h5

theorem keepsInvAndCfg_writeRange (addr : Word) (bytes : List Byte) (p : Privilege) :
    KeepsInvAndCfg (writeRange addr bytes p) := by
  induction bytes generalizing addr with
  | nil => exact fun s hs => ⟨hs, rfl⟩
  | cons b bs ih =>
    intro s hs
    obtain ⟨hi, hc⟩ := keepsInvAndCfg_memWrite addr b p s hs
    obtain ⟨hi', hc'⟩ := ih (addr + 1) _ hi
    exact ⟨hi', hc'.trans hc⟩

theorem keepsInvAndCfg_loadRange (addr : Word) (bytes : List Byte) (p : Privilege) :
    KeepsInvAndCfg (loadRange addr bytes p) := by
  intro s hs
  have written := keepsInvAndCfg_writeRange addr bytes p s hs
  unfold loadRange
  split
  · exact written
  · split
    · exact ⟨hs, rfl⟩
    · exact written

theorem keepsInvAndCfg_resetSequence : KeepsInvAndCfg resetSequence := fun s hs =>
  ⟨inv_iff.mpr ⟨(inv_iff.mp hs).1, show bit 0x20 5 = true by decide⟩, rfl⟩

/-- Setting a bit of SR other than bit 5 keeps the invariant. -/
theorem keepsInvAndCfg_setFlag (n : Nat) (b : Bool) (hn : n < 8) (h : 5 ≠ n) : KeepsInvAndCfg (setFlag n b) := by
  intro s hs
  obtain ⟨hw, h5⟩ := inv_iff.mp hs
  refine ⟨inv_iff.mpr ⟨hw, ?_⟩, rfl⟩
  rw [bit_setFlag _ _ _ _ hn, if_neg h]
  exact h5

/-- The interrupt sequence changes no bit of SR but I (60_exceptions.md R157). -/
theorem bit_interruptSequence_sr (vec : Word) (s : State) (n : Nat) (hn : n ≠ 2) :
    bit (interruptSequence vec s).sr n = bit s.sr n := by
  rw [interruptSequence_eq]
  simp only
  split
  · exact (bit_setFlag s bitI n true (by decide)).trans (if_neg hn)
  · rfl

theorem keepsInvAndCfg_interruptSequence (vec : Word) : KeepsInvAndCfg (interruptSequence vec) := by
  intro s hs
  obtain ⟨hw, h5⟩ := inv_iff.mp hs
  refine ⟨inv_iff.mpr ⟨interruptSequence_mem_wf vec hw, ?_⟩, ?_⟩
  · rw [bit_interruptSequence_sr vec s 5 (by decide), h5]
  · rw [interruptSequence_eq]

theorem keepsInvAndCfg_brkSequence : KeepsInvAndCfg brkSequence := by
  intro s hs
  obtain ⟨hi, hc⟩ := keepsInvAndCfg_setFlag bitB true (by decide) (by decide) s hs
  obtain ⟨hi', hc'⟩ := keepsInvAndCfg_interruptSequence irqVector _ hi
  exact ⟨hi', hc'.trans hc⟩

theorem keepsInvAndCfg_interruptDispatch (kind : InterruptKind) : KeepsInvAndCfg (interruptDispatch kind) := by
  intro s hs
  cases kind with
  | nmi => exact keepsInvAndCfg_interruptSequence nmiVector s hs
  | reset => exact keepsInvAndCfg_resetSequence s hs
  | irq =>
    simp only [interruptDispatch]
    split
    · exact ⟨hs, rfl⟩
    · exact keepsInvAndCfg_interruptSequence irqVector s hs
  | brk => exact keepsInvAndCfg_brkSequence s hs
  | other id => exact ⟨inv_of_mem_sr_eq rfl rfl hs, rfl⟩

/-- What every step keeps, a run of any length keeps. -/
theorem runFor_preserves {P : State → Prop} (hstep : ∀ s t, P s → step s = .next t → P t) {n : Nat} {s t : State}
    (hs : P s) (h : runFor n s = .next t) : P t := by
  induction n generalizing s with
  | zero => exact Host.Outcome.next.inj h ▸ hs
  | succ n ih =>
    simp only [runFor] at h
    split at h
    · split at h
      · next u hu => exact ih (hstep s u hs hu) h
      · cases h
      · cases h
    · exact Host.Outcome.next.inj h ▸ hs
    · exact Host.Outcome.next.inj h ▸ hs

/-- Settles O13: one lemma per command's effect, and an induction on the length of a run. -/
theorem commandsKeepInvariant : Obligations.CommandsKeepInvariant := by
  intro cmd s t hs h
  have of_effect : ∀ {effect : State → State}, KeepsInvAndCfg effect →
      (.next (whileRunning effect s) : Host.Outcome State Fault Refusal) = .next t → t.inv = true ∧ t.cfg = s.cfg :=
    fun he e => Host.Outcome.next.inj e ▸ he.whileRunning s hs
  cases cmd with
  | step => exact ⟨stepKeepsInvariant s t hs h, step_cfg h⟩
  | reset => exact of_effect keepsInvAndCfg_resetSequence h
  | interrupt kind => exact of_effect (keepsInvAndCfg_interruptDispatch kind) h
  | set addr v p => exact of_effect (keepsInvAndCfg_memWrite addr v p) h
  | loadRange addr bytes p => exact of_effect (keepsInvAndCfg_loadRange addr bytes p) h
  | runFor n =>
    refine runFor_preserves (P := fun u => u.inv = true ∧ u.cfg = s.cfg) ?_ ⟨hs, rfl⟩ h
    rintro u v ⟨hi, hc⟩ hu
    exact ⟨stepKeepsInvariant u v hi hu, (step_cfg hu).trans hc⟩

/-- Settles O14. -/
theorem resetMeetsInvariant : Obligations.ResetMeetsInvariant := inv_iff.mpr ⟨reset_memory_wf, by decide⟩

/-! ### Terminal run states (10_state.md R36) -/

theorem whileRunning_of_not_running (effect : State → State) {s : State} (h : s.rs ≠ .running) :
    whileRunning effect s = s := by
  rcases whileRunning_cases effect s with ⟨hr, -⟩ | ⟨-, e⟩
  · exact absurd hr h
  · exact e

theorem runFor_of_not_running (n : Nat) {s : State} (h : s.rs ≠ .running) : runFor n s = .next s := by
  cases n with
  | zero => rfl
  | succ n => cases hr : s.rs <;> simp_all [runFor]

/-- Settles O10: every command is a step, a run of steps, or an effect that takes place while Running. -/
theorem terminalStatesNeverChange : Obligations.TerminalStatesNeverChange := by
  intro s cmd h
  cases cmd with
  | step => exact step_not_running s h
  | runFor n => exact runFor_of_not_running n h
  | reset | interrupt _ | set _ _ _ | loadRange _ _ _ =>
    exact congrArg Host.Outcome.next (whileRunning_of_not_running _ h)

/-- Settles O15: construction with no image is `Reset()` of the power-on state, whose memory reads 0x00 everywhere. -/
theorem constructionGivesPowerOnValues : Obligations.ConstructionGivesPowerOnValues := by
  have constructed : construct Config.defaults [] [] = .next (resetSequence State.reset) := by
    rw [construct, if_neg (by decide), if_neg (by decide)]
    rfl
  have vector : readWord resetVector State.reset = 0x0000 := by decide
  refine ⟨_, constructed, ?_, rfl, rfl, rfl, rfl, rfl, rfl, rfl, rfl, fun _ => rfl⟩
  simp only [resetSequence, vector]
  rfl

/-! ### Flag lifetimes (10_state.md R30, R32) -/

/-- Bytes that decode are the encoding of what they decode to, and the bytes after it (30_encoding.md R65). -/
theorem encode_of_decode {c : Config} {bytes rest : List Byte} {i : Instr} (h : decode c bytes = .ok i rest) :
    i.wf c = true ∧ ∃ front, encode c i = some front ∧ bytes = front ++ rest := by
  cases bytes with
  | nil => simp [decode] at h
  | cons op bs =>
    simp only [decode] at h
    split at h
    · next hd hdisp =>
      have he := dispatch_encodesAs hdisp
      rcases assemble_cases h with ⟨rfl, rfl⟩ | ⟨mk, b, rfl, rfl, rfl⟩ | ⟨mk, v, rfl, rfl, rfl⟩
      · exact ⟨he.1, _, he.2, rfl⟩
      · exact ⟨(he b).1, _, (he b).2, rfl⟩
      · exact ⟨(he v).1, _, (he v).2, rfl⟩
    · cases h

/-- The byte at PC is the first byte of the decoded instruction's encoding. -/
theorem read_pc_of_decode {s : State} {i : Instr} {op : Byte} {ops rest : List Byte}
    (h : decode s.cfg (codeBytes s) = .ok i rest) (he : encode s.cfg i = some (op :: ops)) :
    s.mem.read s.pc.toNat = op := by
  obtain ⟨-, front, hf, hb⟩ := encode_of_decode h
  rw [he, Option.some.injEq] at hf
  subst hf
  exact (List.cons.inj hb).1

/-- A bit of SR that a step changes is in the write set of the instruction at PC. -/
theorem step_changes_flag {s t : State} {n : Nat} (hn : n < 8) (h : step s = .next t) (hne : bit t.sr n ≠ bit s.sr n) :
    ∃ i rest, decode s.cfg (codeBytes s) = .ok i rest ∧ exec i (fetchedState i.length s) = .next t ∧
      .flag n ∈ mayWrite s.cfg i := by
  rcases step_cases h with ⟨-, rfl⟩ | ⟨-, -, rfl⟩ | ⟨-, -, rfl⟩ | ⟨-, i, rest, hd, he, -⟩
  · exact absurd rfl hne
  · exact absurd rfl hne
  · exact absurd rfl hne
  · exact ⟨i, rest, hd, he, ((exec_keepsOutside_mayWrite he).flag n hn).resolve_left hne⟩

/-- CLV clears V (44_stack_flags.md R135). -/
theorem exec_clv_overflow {s t : State} (h : exec .clv s = .next t) : bit t.sr 6 = false :=
  of_exec_next (P := fun u => bit u.sr 6 = false) ⟨_, rfl, bit_setFlag s bitV 6 false (by decide)⟩ h

/-- BRK sets B, or leaves it where the padding skip faults (45_control_system.md R143). -/
theorem exec_brk_break {s t : State} (h : exec .brk s = .next t) (hb : bit s.sr 4 = true) : bit t.sr 4 = true := by
  have marked : ∀ u : State, bit (brkSequence u).sr 4 = true := fun u =>
    (bit_interruptSequence_sr irqVector _ 4 (by decide)).trans (bit_setFlag u bitB 4 true (by decide))
  refine of_exec_next (P := fun u => bit u.sr 4 = true) ?_ h
  rcases exec_brk_cases s with ⟨-, e⟩ | ⟨-, -, e⟩ | ⟨-, -, -, e⟩
  · exact ⟨_, e, marked _⟩
  · exact ⟨_, e, marked _⟩
  · exact ⟨_, e, hb⟩

/-- Settles O21: the changed bit names the instruction at PC; CLV never sets V and BRK never clears B. -/
theorem overflowAndBreakFlagLifetimes : Obligations.OverflowAndBreakFlagLifetimes := by
  intro s t h
  refine ⟨fun hs ht => ?_, fun hs ht => ?_, fun hs ht => ?_⟩
  · obtain ⟨i, rest, hd, he, hm⟩ := step_changes_flag (n := 6) (by decide) h (by simp [hs, ht])
    rcases eq_clv_or_plp_of_overflow_mem_mayWrite hm with rfl | rfl
    · simp [exec_clv_overflow he] at ht
    · exact read_pc_of_decode hd rfl
  · obtain ⟨i, rest, hd, he, hm⟩ := step_changes_flag (n := 4) (by decide) h (by simp [hs, ht])
    rcases eq_brk_or_plp_of_break_mem_mayWrite hm with rfl | rfl
    · simp [exec_brk_break he hs] at ht
    · exact read_pc_of_decode hd rfl
  · obtain ⟨i, rest, hd, he, hm⟩ := step_changes_flag (n := 4) (by decide) h (by simp [hs, ht])
    rcases eq_brk_or_plp_of_break_mem_mayWrite hm with rfl | rfl
    · exact .inr (read_pc_of_decode hd rfl)
    · exact .inl (read_pc_of_decode hd rfl)

/-! ### The branches of a running step, an equation each, from `step_running` -/

theorem step_of_ok {s : State} {i : Instr} {rest : List Byte} (hr : s.rs = .running)
    (hd : decode s.cfg (codeBytes s) = .ok i rest) (ho : fetchOverflows i.length s = false) :
    step s = settle s (exec i (fetchedState i.length s)) := by
  simp [step_running s hr, hd, ho]

theorem step_of_ok_overflow {s : State} {i : Instr} {rest : List Byte} (hr : s.rs = .running)
    (hd : decode s.cfg (codeBytes s) = .ok i rest) (ho : fetchOverflows i.length s = true) :
    step s = .next (raise (.addressOverflow 0xFFFF) s) := by
  simp [step_running s hr, hd, ho]

theorem step_of_error {s : State} {err : DecodeError} (hr : s.rs = .running)
    (hd : decode s.cfg (codeBytes s) = .error err) (ho : fetchOverflows 1 s = false) :
    step s = .next (emit (.badOpcode s.pc (memRead s.pc s)) (fetchedState 1 s)) := by
  simp [step_running s hr, hd, ho]

theorem step_of_error_overflow {s : State} {err : DecodeError} (hr : s.rs = .running)
    (hd : decode s.cfg (codeBytes s) = .error err) (ho : fetchOverflows 1 s = true) :
    step s = .next (raise (.addressOverflow 0xFFFF) s) := by
  simp [step_running s hr, hd, ho]

theorem settle_of_faulted {s u : State} {f : Fault} (h : u.rs = .faulted f) :
    settle s (.next u) = .next (raise f s) := by
  simp only [settle, h]

theorem settle_of_not_faulted {s u : State} (h : ∀ f, u.rs ≠ .faulted f) : settle s (.next u) = .next u := by
  cases hr : u.rs with
  | running | halted _ => simp only [settle, hr]
  | faulted f => exact absurd hr (h f)

/-! ### The log and the latch cannot be read (10_state.md R35, R37) -/

/-- The machine `s` with another latch and another log. -/
def relogged (l : Word) (d : List Event) (s : State) : State := { s with loc := l, dl := d }

/-- The execution of `i` from `s` answers the same for every latch and log, but for the events it appends. -/
def IgnoresLog (i : Instr) (s : State) : Prop :=
  ∃ t new, exec i s = .next t ∧ t.dl = s.dl ++ new ∧
    ∀ l d, exec i (relogged l d s) = .next (relogged l (d ++ new) t)

/-- An execution that appends nothing. -/
theorem IgnoresLog.of_silent {i : Instr} {s t : State} (h : exec i s = .next t) (hd : t.dl = s.dl)
    (hr : ∀ l d, exec i (relogged l d s) = .next (relogged l d t)) : IgnoresLog i s :=
  ⟨t, [], h, by simpa using hd, by simpa using hr⟩

/-- A store: refused with one event, or accepted, by its address alone. -/
theorem IgnoresLog.of_memWrite {i : Instr} {s : State} (addr : Word) (v : Byte)
    (h : exec i s = .next (memWrite addr v .unpriv s))
    (hr : ∀ l d, exec i (relogged l d s) = .next (memWrite addr v .unpriv (relogged l d s))) : IgnoresLog i s := by
  cases hp : isProtected addr with
  | true =>
    have refused : ∀ u, memWrite addr v .unpriv u = emit (.writeRejected addr v) u := by simp [memWrite, hp]
    simp only [refused] at h hr
    exact ⟨_, [_], h, rfl, hr⟩
  | false =>
    have accepted : ∀ u, memWrite addr v .unpriv u = { u with mem := u.mem.write addr.toNat v } := by
      simp [memWrite, hp]
    simp only [accepted] at h hr
    exact .of_silent h rfl hr

theorem push_relogged (v : Byte) (l : Word) (d : List Event) (s : State) :
    push v (relogged l d s) = relogged l d (push v s) := by
  rw [push_eq, push_eq]
  rfl

theorem brkSequence_relogged (l : Word) (d : List Event) (s : State) :
    brkSequence (relogged l d s) = relogged l d (brkSequence s) := by
  simp only [brkSequence, interruptSequence_eq]
  rfl

theorem brkSequence_dl (s : State) : (brkSequence s).dl = s.dl := by
  rw [brkSequence, interruptSequence_eq]
  rfl

theorem push_dl (v : Byte) (s : State) : (push v s).dl = s.dl := by rw [push_eq]

theorem exec_ignoresLog (i : Instr) (s : State) : IgnoresLog i s := by
  cases i with
  | staZp zp => exact .of_memWrite (zeroPageAddr zp) s.a rfl fun _ _ => rfl
  | staAbs addr => exact .of_memWrite addr s.a rfl fun _ _ => rfl
  | stxZp zp => exact .of_memWrite (zeroPageAddr zp) s.x rfl fun _ _ => rfl
  | styZp zp => exact .of_memWrite (zeroPageAddr zp) s.y rfl fun _ _ => rfl
  | print addr => exact ⟨_, [_], rfl, rfl, fun _ _ => rfl⟩
  | ldaImm v =>
    cases hz : s.cfg.ldaSetsZN with
    | true => exact .of_silent (exec_ldaImm_of_setsZN v hz) rfl fun _ _ => exec_ldaImm_of_setsZN v hz
    | false => exact .of_silent (exec_ldaImm_of_keepsZN v hz) rfl fun _ _ => exec_ldaImm_of_keepsZN v hz
  | pla =>
    cases hz : s.cfg.plaSetsZN with
    | true => exact .of_silent (exec_pla_of_setsZN hz) rfl fun _ _ => exec_pla_of_setsZN hz
    | false => exact .of_silent (exec_pla_of_keepsZN hz) rfl fun _ _ => exec_pla_of_keepsZN hz
  | pha => exact .of_silent rfl (push_dl s.a s) fun l d => congrArg _ (push_relogged s.a l d s)
  | php => exact .of_silent rfl (push_dl s.sr s) fun l d => congrArg _ (push_relogged s.sr l d s)
  | tsx =>
    cases hm : s.cfg.tsxTxsMode with
    | stackPath => exact .of_silent (exec_tsx_of_stackPath hm) rfl fun _ _ => exec_tsx_of_stackPath hm
    | direct => exact .of_silent (exec_tsx_of_direct hm) rfl fun _ _ => exec_tsx_of_direct hm
  | txs =>
    cases hm : s.cfg.tsxTxsMode with
    | stackPath =>
      exact .of_silent (exec_txs_of_stackPath hm) (push_dl s.x s) fun l d =>
        (exec_txs_of_stackPath (s := relogged l d s) hm).trans (congrArg _ (push_relogged s.x l d s))
    | direct => exact .of_silent (exec_txs_of_direct hm) rfl fun _ _ => exec_txs_of_direct hm
  | jmpInd ptr =>
    rcases pointerTarget_cases ptr s with ⟨target, h⟩ | ⟨-, -, -, h⟩
    · exact .of_silent (exec_jmpInd_of_ok h) rfl fun _ _ => exec_jmpInd_of_ok h
    · exact .of_silent (exec_jmpInd_of_error h) rfl fun _ _ => exec_jmpInd_of_error h
  | brk =>
    cases hb : s.cfg.brkSkipsPadding with
    | false =>
      exact .of_silent (exec_brk_of_no_padding hb) (brkSequence_dl s) fun l d =>
        (exec_brk_of_no_padding (s := relogged l d s) hb).trans (congrArg _ (brkSequence_relogged l d s))
    | true =>
      rcases nextAddr_cases s s.pc with ⟨h, -⟩ | ⟨h, -⟩
      · exact .of_silent (exec_brk_of_padding_ok hb h) (brkSequence_dl _) fun l d =>
          (exec_brk_of_padding_ok (s := relogged l d s) hb h).trans
            (congrArg _ (brkSequence_relogged l d (setPC (s.pc + 1) s)))
      · exact .of_silent (exec_brk_of_padding_error hb h) rfl fun _ _ => exec_brk_of_padding_error hb h
  | _ => exact .of_silent rfl rfl fun _ _ => rfl

/-- Settles O23: the decoder and the overflow tests read neither the log nor the latch, so both machines take the same
branch of the step, and `exec_ignoresLog` compares the executions. -/
theorem logAndLatchAreUnreadable : Obligations.LogAndLatchAreUnreadable := by
  intro s t l d h
  change ∃ new l', t.dl = s.dl ++ new ∧ step (relogged l d s) = .next (relogged l' (d ++ new) t)
  have silent : ∀ l', t.dl = s.dl → step (relogged l d s) = .next (relogged l' d t) →
      ∃ new l', t.dl = s.dl ++ new ∧ step (relogged l d s) = .next (relogged l' (d ++ new) t) :=
    fun l' hd h => ⟨[], l', by simpa using hd, by simpa using h⟩
  by_cases hr : s.rs = .running
  · cases hd : decode s.cfg (codeBytes s) with
    | error _ =>
      cases ho : fetchOverflows 1 s with
      | true =>
        obtain rfl := Host.Outcome.next.inj ((step_of_error_overflow hr hd ho).symm.trans h)
        exact silent l rfl (step_of_error_overflow (s := relogged l d s) hr hd ho)
      | false =>
        obtain rfl := Host.Outcome.next.inj ((step_of_error hr hd ho).symm.trans h)
        exact ⟨[_], s.pc, rfl, step_of_error (s := relogged l d s) hr hd ho⟩
    | ok i rest =>
      cases ho : fetchOverflows i.length s with
      | true =>
        obtain rfl := Host.Outcome.next.inj ((step_of_ok_overflow hr hd ho).symm.trans h)
        exact silent l rfl (step_of_ok_overflow (s := relogged l d s) hr hd ho)
      | false =>
        obtain ⟨u, new, hu, hnew, hrel⟩ := exec_ignoresLog i (fetchedState i.length s)
        rw [step_of_ok hr hd ho, hu] at h
        have e : step (relogged l d s) = settle (relogged l d s) (.next (relogged s.pc (d ++ new) u)) :=
          (step_of_ok (s := relogged l d s) hr hd ho).trans (congrArg _ (hrel s.pc d))
        by_cases hf : ∃ f, u.rs = .faulted f
        · obtain ⟨f, hf⟩ := hf
          obtain rfl := Host.Outcome.next.inj ((settle_of_faulted hf).symm.trans h)
          exact silent l rfl (e.trans (settle_of_faulted hf))
        · have hf' : ∀ f, u.rs ≠ .faulted f := not_exists.mp hf
          obtain rfl := Host.Outcome.next.inj ((settle_of_not_faulted hf').symm.trans h)
          exact ⟨new, s.pc, hnew, e.trans (settle_of_not_faulted hf')⟩
  · obtain rfl := Host.Outcome.next.inj ((step_not_running s hr).symm.trans h)
    exact silent l rfl (step_not_running _ hr)

end StateFamily

end Sys2Proof.Machine

/-! PROOFS. The family of 20_memory.md: a write is accepted or refused, what an execution may do to memory, the two
protected regions, the host's writes, and construction. -/
namespace Sys2Proof.Machine

section MemoryFamily

open Sys2Proof.Says

/-! ### One write (20_memory.md R43-R45) -/

/-- An address in the stack page or the ROM/vector region (20_memory.md R41), as the statements write it. -/
abbrev InProtectedPages (a : Nat) : Prop := (0x100 ≤ a ∧ a ≤ 0x1FF) ∨ 0xFF00 ≤ a

theorem isProtected_iff (addr : Word) : isProtected addr = true ↔ InProtectedPages addr.toNat := by
  simp [isProtected, InProtectedPages]

theorem oneByte_write (m : Memory) (addr : Nat) (v : Byte) : OneByte addr v m (m.write addr v) :=
  fun a => Memory.read_write m addr a v

theorem memWrite_priv_oneByte (addr : Word) (v : Byte) (s : State) :
    memWrite addr v .priv s = { s with mem := (memWrite addr v .priv s).mem } ∧
      OneByte addr.toNat v s.mem (memWrite addr v .priv s).mem := by
  rw [memWrite_priv]
  exact ⟨rfl, oneByte_write s.mem addr.toNat v⟩

theorem memWrite_unpriv_stored (addr : Word) (v : Byte) (s : State) :
    Stored addr.toNat v s (memWrite addr v .unpriv s) := by
  unfold Stored
  rcases memWrite_cases s addr v .unpriv with ⟨-, hp, e⟩ | ⟨hp, e⟩ <;> rw [e]
  · rw [if_pos ((isProtected_iff addr).mp hp), BitVec.ofNat_toNat, BitVec.setWidth_eq]
  · rw [if_neg fun ha => hp ⟨rfl, (isProtected_iff addr).mpr ha⟩]
    exact ⟨rfl, oneByte_write s.mem addr.toNat v⟩

/-- Settles O30, one lemma per privilege. -/
theorem writeIsAcceptedOrRefused : Obligations.WriteIsAcceptedOrRefused := by
  intro addr v p s
  exact ⟨fun hp => hp ▸ memWrite_unpriv_stored addr v s, fun hp => hp ▸ memWrite_priv_oneByte addr v s⟩

/-- An unprivileged write leaves every protected byte as it was. -/
theorem memWrite_unpriv_read_of_protected (addr : Word) (v : Byte) (s : State) {a : Nat} (ha : InProtectedPages a) :
    (memWrite addr v .unpriv s).mem.read a = s.mem.read a := by
  rcases memWrite_cases s addr v .unpriv with ⟨-, -, e⟩ | ⟨hp, e⟩ <;> rw [e]
  have hne : a ≠ addr.toNat := fun h => hp ⟨rfl, (isProtected_iff addr).mpr (h ▸ ha)⟩
  rw [Memory.read_write, if_neg hne]

/-! ### What an execution may do to memory (20_memory.md R46)

An execution keeps memory, or is one unprivileged write, or pushes; a push stays in the stack page. -/

/-- The two states hold the same bytes outside 0x0100-0x01FF. -/
def AgreeOutsideStackPage (s t : State) : Prop := ∀ a, a < 0x100 ∨ 0x200 ≤ a → t.mem.read a = s.mem.read a

theorem agreeOutsideStackPage_push (v : Byte) (s : State) : AgreeOutsideStackPage s (push v s) := by
  intro a ha
  have := s.sp.isLt
  rw [push_eq, Memory.read_write, if_neg (by omega)]

theorem agreeOutsideStackPage_interruptSequence (vec : Word) (s : State) :
    AgreeOutsideStackPage s (interruptSequence vec s) := by
  intro a ha
  rw [interruptSequence_eq]
  exact framedMem_read_other s a ha

/-- The instructions that push (44_stack_flags.md R139). -/
def pushInstrs : List Instr := [.pha, .php, .txs, .brk]

/-- The ways `i` can take the memory of `s` to that of `t`. -/
inductive MemoryChange (i : Instr) (s t : State) : Prop
  | kept (h : t.mem = s.mem)
  | stored (addr : Word) (v : Byte) (h : t = memWrite addr v .unpriv s)
  | pushed (hi : i ∈ pushInstrs) (h : AgreeOutsideStackPage s t)

theorem exec_exists_memoryChange (i : Instr) (s : State) : ∃ t, exec i s = .next t ∧ MemoryChange i s t := by
  have kept_of (hm : .mem ∉ mayWrite s.cfg i) : ∃ t, exec i s = .next t ∧ MemoryChange i s t := by
    obtain ⟨t, h, k⟩ := exec_exists_keepsOutside_mayWrite i s
    exact ⟨t, h, .kept (k.mem.resolve_right hm)⟩
  cases i with
  | staZp _ | staAbs _ | stxZp _ | styZp _ => exact ⟨_, rfl, .stored _ _ rfl⟩
  | pha | php => exact ⟨_, rfl, .pushed (by decide) (agreeOutsideStackPage_push _ s)⟩
  | txs =>
    cases hm : s.cfg.tsxTxsMode with
    | stackPath => exact ⟨_, exec_txs_of_stackPath hm, .pushed (by decide) (agreeOutsideStackPage_push _ s)⟩
    | direct => exact ⟨_, exec_txs_of_direct hm, .kept rfl⟩
  | brk =>
    rcases exec_brk_cases s with ⟨-, e⟩ | ⟨-, -, e⟩ | ⟨-, -, -, e⟩
    · exact ⟨_, e, .pushed (by decide) (agreeOutsideStackPage_interruptSequence irqVector (setFlag bitB true s))⟩
    · exact ⟨_, e, .pushed (by decide)
        (agreeOutsideStackPage_interruptSequence irqVector (setFlag bitB true (setPC (s.pc + 1) s)))⟩
    · exact ⟨_, e, .kept rfl⟩
  | _ => exact kept_of (by simp [mayWrite, znFlags])

theorem exec_memoryChange {i : Instr} {s t : State} (h : exec i s = .next t) : MemoryChange i s t :=
  of_exec_next (exec_exists_memoryChange i s) h

/-- A protected byte that a step changes lies in the stack page, and the instruction at PC pushes. -/
theorem step_changes_protected {s t : State} {a : Nat} (h : step s = .next t) (ha : InProtectedPages a)
    (hne : t.mem.read a ≠ s.mem.read a) :
    (0x100 ≤ a ∧ a ≤ 0x1FF) ∧ ∃ i rest, decode s.cfg (codeBytes s) = .ok i rest ∧ i ∈ pushInstrs := by
  rcases step_cases h with ⟨-, rfl⟩ | ⟨-, -, rfl⟩ | ⟨-, -, rfl⟩ | ⟨-, i, rest, hd, he, -⟩
  · exact absurd rfl hne
  · exact absurd rfl hne
  · exact absurd rfl hne
  · cases exec_memoryChange he with
    | kept hm => exact absurd (congrArg (Memory.read · a) hm) hne
    | stored addr v e => exact absurd (e ▸ memWrite_unpriv_read_of_protected addr v _ ha) hne
    | pushed hi hag =>
      have hin : ¬(a < 0x100 ∨ 0x200 ≤ a) := fun ho => hne (hag a ho)
      exact ⟨by omega, i, rest, hd, hi⟩

/-- Settles O20: the changed byte names a pushing instruction at PC, and its encoding is its opcode byte. -/
theorem onlyPushesChangeTheStackPage : Obligations.OnlyPushesChangeTheStackPage := by
  intro s t a h h1 h2 hne
  obtain ⟨-, i, rest, hd, hi⟩ := step_changes_protected h (.inl ⟨h1, h2⟩) hne
  simp only [pushInstrs, List.mem_cons, List.not_mem_nil, or_false] at hi
  rcases hi with rfl | rfl | rfl | rfl <;> rw [read_pc_of_decode hd rfl] <;> decide

/-! ### The ROM/vector region (20_memory.md R45, R46, R55) -/

/-- The two states hold the same bytes in 0xFF00-0xFFFF. -/
def SameRom (s t : State) : Prop := ∀ a, 0xFF00 ≤ a → t.mem.read a = s.mem.read a

theorem SameRom.of_mem_eq {s t : State} (h : t.mem = s.mem) : SameRom s t := fun a _ => congrArg (Memory.read · a) h

theorem SameRom.trans {s t u : State} (h : SameRom s t) (h' : SameRom t u) : SameRom s u :=
  fun a ha => (h' a ha).trans (h a ha)

theorem AgreeOutsideStackPage.sameRom {s t : State} (h : AgreeOutsideStackPage s t) : SameRom s t :=
  fun a ha => h a (.inr (by omega))

theorem step_sameRom {s t : State} (h : step s = .next t) : SameRom s t := by
  intro a ha
  by_contra hne
  obtain ⟨⟨-, h2⟩, -⟩ := step_changes_protected h (.inr ha) hne
  omega

theorem interruptDispatch_sameRom (kind : InterruptKind) (s : State) : SameRom s (interruptDispatch kind s) := by
  cases kind with
  | nmi => exact (agreeOutsideStackPage_interruptSequence nmiVector s).sameRom
  | reset => exact .of_mem_eq rfl
  | irq =>
    simp only [interruptDispatch]
    split
    · exact .of_mem_eq rfl
    · exact (agreeOutsideStackPage_interruptSequence irqVector s).sameRom
  | brk => exact (agreeOutsideStackPage_interruptSequence irqVector (setFlag bitB true s)).sameRom
  | other id => exact .of_mem_eq rfl

theorem whileRunning_sameRom {effect : State → State} {s : State} (he : SameRom s (effect s)) :
    SameRom s (whileRunning effect s) := by
  rcases whileRunning_cases effect s with ⟨-, e⟩ | ⟨-, e⟩ <;> rw [e]
  · exact he
  · exact .of_mem_eq rfl

/-- Settles O19: a step writes no protected byte but by a push, the interrupt sequence writes only the stack page, and
reset writes no memory; an induction on the length of a run. -/
theorem programsNeverChangeRom : Obligations.ProgramsNeverChangeRom := by
  intro cmd s t hcmd h
  change SameRom s t
  rcases hcmd with rfl | rfl | ⟨kind, rfl⟩ | ⟨n, rfl⟩
  · exact step_sameRom h
  · exact Host.Outcome.next.inj h ▸ whileRunning_sameRom (.of_mem_eq rfl)
  · exact Host.Outcome.next.inj h ▸ whileRunning_sameRom (interruptDispatch_sameRom kind s)
  · exact runFor_preserves (P := SameRom s) (fun _ _ hu hstep => hu.trans (step_sameRom hstep)) (.of_mem_eq rfl) h

/-! ### The host's writes (20_memory.md R48-R50) -/

theorem whileRunning_of_running (effect : State → State) {s : State} (h : s.rs = .running) :
    whileRunning effect s = effect s := by
  simp [whileRunning, h]

theorem transact_set_of_running {s : State} (h : s.rs = .running) (addr : Word) (v : Byte) (p : Privilege) :
    transact (.set addr v p) s = .next (memWrite addr v p s) :=
  congrArg Host.Outcome.next (whileRunning_of_running _ h)

theorem transact_loadRange_of_running {s : State} (h : s.rs = .running) (addr : Word) (bytes : List Byte)
    (p : Privilege) : transact (.loadRange addr bytes p) s = .next (loadRange addr bytes p s) :=
  congrArg Host.Outcome.next (whileRunning_of_running _ h)

theorem memWrite_rs (addr : Word) (v : Byte) (p : Privilege) (s : State) : (memWrite addr v p s).rs = s.rs := by
  rw [memWrite_frame]

theorem memWrite_cfg (addr : Word) (v : Byte) (p : Privilege) (s : State) : (memWrite addr v p s).cfg = s.cfg := by
  rw [memWrite_frame]

/-- Settles O55: while Running, `set` is `MemWrite`, and the byte a privileged write leaves is the one `get` reads. -/
theorem hostSetIsOneWrite : Obligations.HostSetIsOneWrite := by
  intro s addr v hr
  obtain ⟨hframe, hone⟩ := memWrite_priv_oneByte addr v s
  exact ⟨⟨_, transact_set_of_running hr addr v .unpriv, memWrite_unpriv_stored addr v s⟩,
    ⟨_, transact_set_of_running hr addr v .priv, hframe, hone, (hone addr.toNat).trans (if_pos rfl)⟩⟩

theorem loadRange_of_overflow {s : State} {addr : Word} {bytes : List Byte} (p : Privilege)
    (hf : s.cfg.addrOverflow = .fault) (h : 65536 < addr.toNat + bytes.length) : loadRange addr bytes p s = s := by
  simp [loadRange, hf, rangeOverflows, h]

theorem loadRange_of_accepted {s : State} {addr : Word} {bytes : List Byte} (p : Privilege)
    (h : s.cfg.addrOverflow = .wrap ∨ addr.toNat + bytes.length ≤ 65536) :
    loadRange addr bytes p s = writeRange addr bytes p s := by
  cases hc : s.cfg.addrOverflow with
  | wrap => simp [loadRange, hc]
  | fault =>
    have hfits : addr.toNat + bytes.length ≤ 65536 := h.resolve_left (by simp [hc])
    simp [loadRange, hc, rangeOverflows, Nat.not_lt.mpr hfits]

/-- The rest of a range that fits below 65,536 fits too, also where the address wraps. -/
theorem rest_fits {addr : Word} {n : Nat} (h : addr.toNat + (n + 1) ≤ 65536) : (addr + 1).toNat + n ≤ 65536 := by
  have := addr.isLt
  rw [BitVec.toNat_add, show (1 : Word).toNat = 1 from rfl]
  omega

/-- Where the range is accepted, `load_range` is the write of its first byte and `load_range` of the rest. -/
theorem loadRange_cons_of_accepted {s : State} {addr : Word} {b : Byte} {bs : List Byte} (p : Privilege)
    (h : s.cfg.addrOverflow = .wrap ∨ addr.toNat + (bs.length + 1) ≤ 65536) :
    loadRange addr (b :: bs) p s = loadRange (addr + 1) bs p (memWrite addr b p s) := by
  rw [loadRange_of_accepted p h, loadRange_of_accepted p (memWrite_cfg addr b p s ▸ h.imp_right rest_fits)]
  rfl

/-- Settles O56. -/
theorem loadRangeIsByteByByte : Obligations.LoadRangeIsByteByByte := by
  intro s addr p hr
  refine ⟨?empty, fun b bs => ⟨fun hf ho => ?refused, fun ha => ⟨_, transact_set_of_running hr addr b p, ?accepted⟩⟩⟩
  case empty =>
    have fits : addr.toNat + ([] : List Byte).length ≤ 65536 := addr.isLt.le
    rw [transact_loadRange_of_running hr, loadRange_of_accepted p (.inr fits)]
    rfl
  case refused => rw [transact_loadRange_of_running hr, loadRange_of_overflow p hf ho]
  case accepted =>
    rw [transact_loadRange_of_running hr, loadRange_cons_of_accepted p ha,
      transact_loadRange_of_running ((memWrite_rs addr b p s).trans hr)]

/-! ### Construction (20_memory.md R47, 70_reset_and_hazards.md R171, R173) -/

/-- The image's bytes stand from `base` up, and every other address reads as 0x00. -/
theorem read_imageCells (base : Nat) (image : List Byte) (a : Nat) :
    (imageCells base image).read a = if base ≤ a then image.getD (a - base) 0x00 else 0x00 := by
  induction image generalizing base with
  | nil => simp [imageCells, Memory.unlisted]
  | cons b bs ih =>
    have listed : (imageCells base (b :: bs)).read a = if base = a then b else (imageCells (base + 1) bs).read a := by
      simp only [imageCells]
      split
      · next hb =>
        split
        · next e => rw [ih, if_neg (by omega), hb]; rfl
        · rfl
      · rfl
    rw [listed, ih]
    rcases Nat.lt_trichotomy base a with hlt | rfl | hgt
    · rw [if_neg (by omega), if_pos (by omega), if_pos (by omega), show a - base = a - (base + 1) + 1 by omega,
        List.getD_cons_succ]
    · simp
    · rw [if_neg (by omega), if_neg (by omega), if_neg (by omega)]

theorem wfFrom_imageCells {base : Nat} {image : List Byte} (h : base + image.length ≤ 65536) :
    Memory.wfFrom base (imageCells base image) = true := by
  induction image generalizing base with
  | nil => rfl
  | cons b bs ih =>
    rw [List.length_cons] at h
    have rest := ih (base := base + 1) (by omega)
    simp only [imageCells]
    split
    · exact Memory.wfFrom_mono (by omega) rest
    · next hb => simp [Memory.wfFrom, rest, hb, show base < 65536 by omega]

theorem construct_of_not_wf {c : Config} (h : c.wf = false) (image : List Byte) (loads : List HostLoad) :
    construct c image loads = .refused .configurationRefused := by
  rw [construct, if_pos h]

theorem construct_of_imageTooLong {c : Config} {image : List Byte} (hc : c.wf = true) (h : 65536 < image.length)
    (loads : List HostLoad) : construct c image loads = .refused .imageTooLong := by
  rw [construct, if_neg (by simp [hc]), if_pos h]

theorem construct_of_accepted {c : Config} {image : List Byte} (hc : c.wf = true) (h : image.length ≤ 65536)
    (loads : List HostLoad) :
    construct c image loads = .next (resetSequence { State.reset with
      cfg := c, mem := (applyLoads loads { State.reset with cfg := c, mem := imageCells 0 image }).mem }) := by
  rw [construct, if_neg (by simp [hc]), if_neg (by omega)]

/-- Under the diagnostic extension an accepted configuration gives both opcodes, distinct from each other and from the
table's bytes (30_encoding.md R69). -/
theorem opcodes_of_config_wf {c : Config} (hx : c.diagExt = true) (hw : c.wf = true) :
    ∃ e p, c.exitOpcode = some e ∧ c.printOpcode = some p ∧ e ≠ p ∧ isTableOpcode e = false ∧
      isTableOpcode p = false := by
  cases he : c.exitOpcode with
  | none => simp [Config.wf, hx, he] at hw
  | some e =>
    cases hp : c.printOpcode with
    | none => simp [Config.wf, hx, hp] at hw
    | some p =>
      obtain ⟨⟨⟨hte, htp⟩, hne⟩, -⟩ :
          ((isTableOpcode e = false ∧ isTableOpcode p = false) ∧ e ≠ p) ∧ c.exitFormat.isSome = true := by
        simpa [Config.wf, Config.distinctOpcodes, hx, he, hp] using hw
      exact ⟨e, p, rfl, rfl, hne, hte, htp⟩

/-- Settles O17: each way to break R69 contradicts what an accepted configuration gives. -/
theorem constructionRefusesCallerErrors : Obligations.ConstructionRefusesCallerErrors := by
  refine ⟨fun c image loads hx hbad => construct_of_not_wf ?_ image loads,
    fun c image loads hw hlen => construct_of_imageTooLong hw hlen loads⟩
  by_contra hw
  obtain ⟨e, p, he, hp, hne, hte, htp⟩ := opcodes_of_config_wf hx (eq_true_of_ne_false hw)
  rcases hbad with h | h | h | ⟨op, h | h, hop⟩
  · simp [he] at h
  · simp [hp] at h
  · exact hne (by simpa [he, hp] using h)
  · obtain rfl : e = op := by simpa [he] using h
    simp [hte] at hop
  · obtain rfl : p = op := by simpa [hp] using h
    simp [htp] at hop

/-- The memory with the word `v` at the reset vector, low byte first (20_memory.md R51, R54). -/
def withResetVector (v : Word) (m : Memory) : Memory := (m.write 0xFFFC (lo v)).write 0xFFFD (hi v)

theorem read_withResetVector (v : Word) (m : Memory) (a : Nat) :
    (withResetVector v m).read a = if a = 0xFFFC then lo v else if a = 0xFFFD then hi v else m.read a := by
  rw [withResetVector, Memory.read_write, Memory.read_write]
  by_cases h : a = 0xFFFC <;> simp [h]

theorem withResetVector_wf (v : Word) {m : Memory} (h : m.wf = true) : (withResetVector v m).wf = true :=
  Memory.wf_write _ _ (Memory.wf_write _ _ h (by decide)) (by decide)

theorem applyLoads_resetVector_mem (v : Word) (s : State) :
    (applyLoads [⟨0xFFFC, [lo v, hi v], .priv⟩] s).mem = withResetVector v s.mem := by
  have fits : (0xFFFC : Word).toNat + [lo v, hi v].length ≤ 65536 := by simp
  simp only [applyLoads, loadRange_of_accepted .priv (.inr fits), writeRange, memWrite_priv]
  rfl

theorem wordOf_lo_hi (v : Word) : wordOf (lo v) (hi v) = v := by
  have := v.isLt
  exact BitVec.eq_of_toNat_eq (by simp; omega)

theorem readWord_resetVector {s : State} {v : Word} {m : Memory} (h : s.mem = withResetVector v m) :
    readWord resetVector s = v := by
  simp only [readWord, memRead, h, read_withResetVector]
  exact wordOf_lo_hi v

/-- Settles O16: the accepted construction is `Reset()` of the power-on state whose memory is the image with the
vector placed on it. -/
theorem constructionHonoursResetVector : Obligations.ConstructionHonoursResetVector := by
  intro c image v hc hlen
  have image_wf : (imageCells 0 image).wf = true := wfFrom_imageCells (by omega)
  refine ⟨_, construct_of_accepted hc hlen _, ?pc, rfl, rfl, rfl, rfl, rfl, rfl, rfl, rfl, ?wf, fun a => ?read⟩ <;>
    simp only [resetSequence, applyLoads_resetVector_mem]
  case pc => exact readWord_resetVector rfl
  case wf => exact withResetVector_wf v image_wf
  case read => simp [read_withResetVector, read_imageCells]

end MemoryFamily

end Sys2Proof.Machine

/-! PROOFS. The family of 30_encoding.md: the decoder and the encoder answer each other, the length of an instruction,
the recognized opcode bytes, and what a step does with the bytes at PC. -/
namespace Sys2Proof.Machine

section EncodingFamily

/-! ### Decoding an encoding (30_encoding.md R60, R63, R65, R69) -/

/-- The instruction has an encoding, and whatever bytes follow it, they decode to the instruction and are left over. -/
def DecodesBack (c : Config) (i : Instr) : Prop :=
  ∀ rest, ∃ bytes, encode c i = some bytes ∧ decode c (bytes ++ rest) = .ok i rest

section Rows

variable {c : Config} {op : Byte}

theorem DecodesBack.of_implied {i : Instr} (he : encode c i = some [op]) (hd : dispatch c op = some (.implied i)) :
    DecodesBack c i :=
  fun _ => ⟨_, he, by simp [decode, hd, assemble]⟩

theorem DecodesBack.of_byte {mk : Byte → Instr} {b : Byte} (he : encode c (mk b) = some [op, b])
    (hd : dispatch c op = some (.byte mk)) : DecodesBack c (mk b) :=
  fun _ => ⟨_, he, by simp [decode, hd, assemble]⟩

theorem DecodesBack.of_word {mk : Word → Instr} {v : Word} (he : encode c (mk v) = some (wordForm op v))
    (hd : dispatch c op = some (.word mk)) : DecodesBack c (mk v) :=
  fun _ => ⟨_, he, by simp [wordForm, decode, hd, assemble]⟩

theorem dispatch_printOpcode (hx : c.diagExt = true) (hp : c.printOpcode = some op) (ht : isTableOpcode op = false) :
    dispatch c op = some (.word .print) := by
  simp [dispatch_of_not_table ht, diagHandler, hx, hp]

theorem dispatch_exitOpcode {f : ExitFormat} (hx : c.diagExt = true) (he : c.exitOpcode = some op)
    (hp : c.printOpcode ≠ some op) (hf : c.exitFormat = some f) (ht : isTableOpcode op = false) :
    dispatch c op = some (exitHandler f) := by
  simp [dispatch_of_not_table ht, diagHandler, hx, he, hp, hf]

end Rows

/-- A configuration has EXIT only under the extension and in the form its format names (45_control_system.md R147). -/
theorem exit_wf_format {c : Config} {status : Option Byte} (h : (Instr.exit status).wf c = true) :
    c.diagExt = true ∧ ∃ f, c.exitFormat = some f ∧ f.matchesStatus status = true := by
  cases hf : c.exitFormat with
  | none => simp [Instr.wf, hf] at h
  | some f =>
    obtain ⟨⟨hx, -⟩, hm⟩ : (c.diagExt = true ∧ c.exitOpcode.isSome = true) ∧ f.matchesStatus status = true := by
      simpa [Instr.wf, hf] using h
    exact ⟨hx, f, rfl, hm⟩

theorem print_decodesBack {c : Config} {addr : Word} (hc : c.wf = true) (h : (Instr.print addr).wf c = true) :
    DecodesBack c (.print addr) := by
  obtain ⟨hx, -⟩ : c.diagExt = true ∧ c.printOpcode.isSome = true := by simpa [Instr.wf] using h
  obtain ⟨-, p, -, hp, -, -, htp⟩ := opcodes_of_config_wf hx hc
  have hd := dispatch_printOpcode hx hp htp
  exact .of_word (dispatch_encodesAs hd addr).2 hd

theorem exit_decodesBack {c : Config} {status : Option Byte} (hc : c.wf = true)
    (h : (Instr.exit status).wf c = true) : DecodesBack c (.exit status) := by
  obtain ⟨hx, f, hf, hm⟩ := exit_wf_format h
  obtain ⟨e, p, he, hp, hne, hte, -⟩ := opcodes_of_config_wf hx hc
  have hd := dispatch_exitOpcode hx he (by simpa [hp] using hne.symm) hf hte
  cases f with
  | implied =>
    cases status with
    | none => exact .of_implied (dispatch_encodesAs hd).2 hd
    | some st => cases hm
  | immediate =>
    cases status with
    | none => cases hm
    | some st => exact .of_byte (mk := fun s => .exit (some s)) (dispatch_encodesAs hd st).2 hd

/-- Settles O1, by the form of the row: the 34 rows are dispatched alike in every configuration, and an accepted
configuration keeps the two optional opcodes apart from them and from each other. -/
theorem decodeOfEncodeIsInstruction : Obligations.DecodeOfEncodeIsInstruction := by
  intro c i rest hc hi
  suffices h : DecodesBack c i from h rest
  cases i with
  | print addr => exact print_decodesBack hc hi
  | exit status => exact exit_decodesBack hc hi
  | ldaImm _ | staZp _ | stxZp _ | styZp _ | adcImm _ | adcZp _ => exact .of_byte rfl rfl
  | staAbs _ | adcAbs _ | jmpAbs _ | jmpInd _ => exact .of_word rfl rfl
  | _ => exact .of_implied rfl rfl

/-! ### Lengths (30_encoding.md R72) -/

theorem assemble_length {h : Handler} {bytes rest : List Byte} {i : Instr} (hl : h.lengthAgrees)
    (ha : assemble h bytes = .ok i rest) :
    i.length = 1 + h.operandBytes ∧ bytes.length = h.operandBytes + rest.length := by
  rcases assemble_cases ha with ⟨rfl, rfl⟩ | ⟨mk, b, rfl, rfl, rfl⟩ | ⟨mk, v, rfl, rfl, rfl⟩
  · exact ⟨hl, (Nat.zero_add _).symm⟩
  · exact ⟨hl b, Nat.add_comm rest.length 1⟩
  · exact ⟨hl v, Nat.add_comm rest.length 2⟩

/-- The handler of the first byte gives the instruction's length, and the decoder consumes as many bytes. -/
theorem decode_cons_length {c : Config} {op : Byte} {bs rest : List Byte} {i : Instr}
    (h : decode c (op :: bs) = .ok i rest) :
    ∃ hd, dispatch c op = some hd ∧ i.length = 1 + hd.operandBytes ∧ bs.length = hd.operandBytes + rest.length := by
  simp only [decode] at h
  split at h
  · next hd hdisp => exact ⟨hd, hdisp, assemble_length (dispatch_lengthAgrees hdisp) h⟩
  · cases h

theorem decode_length {c : Config} {bytes rest : List Byte} {i : Instr} (h : decode c bytes = .ok i rest) :
    bytes.length = i.length + rest.length := by
  cases bytes with
  | nil => cases h
  | cons op bs =>
    obtain ⟨hd, -, hi, hbs⟩ := decode_cons_length h
    rw [List.length_cons, hi, hbs]
    omega

/-- Settles O2, from `encode_of_decode` and the number of bytes the decoder consumes. -/
theorem decodedBytesAreTheEncoding : Obligations.DecodedBytesAreTheEncoding := by
  intro c bytes i rest h
  obtain ⟨hwf, front, he, rfl⟩ := encode_of_decode h
  have hlen := decode_length h
  rw [List.length_append] at hlen
  exact ⟨hwf, front, he, rfl, Nat.add_right_cancel hlen⟩

/-- Settles O4: both lengths are the one the opcode byte's handler gives. -/
theorem lengthIsFixedByOpcode : Obligations.LengthIsFixedByOpcode := by
  intro c op r r' rest rest' i i' h h'
  obtain ⟨hd, hdisp, hi, -⟩ := decode_cons_length h
  obtain ⟨hd', hdisp', hi', -⟩ := decode_cons_length h'
  obtain rfl : hd = hd' := Option.some.inj (hdisp.symm.trans hdisp')
  exact hi.trans hi'.symm

/-! ### The recognized opcode bytes (30_encoding.md R66-R69) -/

theorem dispatch_without_extension {c : Config} (op : Byte) (hx : c.diagExt = false) :
    dispatch c op = lookupRow op opcodeTable := by
  cases hl : lookupRow op opcodeTable with
  | some hd => exact dispatch_of_lookup hl
  | none => rw [dispatch_of_not_table (by simp [isTableOpcode, hl]), diagHandler, if_neg (by simp [hx])]

/-- Settles O3: the count is over the 256 bytes; a table byte is dispatched to its row. -/
theorem thirtyFourOpcodesRecognized : Obligations.ThirtyFourOpcodesRecognized := by
  refine ⟨by decide, fun c op hx => congrArg Option.isSome (dispatch_without_extension op hx), fun c c' op ht => ?_⟩
  obtain ⟨hd, hl⟩ := Option.isSome_iff_exists.mp ht
  rw [dispatch_of_lookup hl, dispatch_of_lookup hl]

/-- Settles O5: the decoder evaluates to each answer. -/
theorem specWordsDecode : Obligations.SpecWordsDecode := by
  unfold Obligations.SpecWordsDecode
  decide

/-! ### The step on the bytes at PC (30_encoding.md R62, R68, R70) -/

theorem decode_codeBytes_of_unrecognized {s : State} (h : dispatch s.cfg (s.mem.read s.pc.toNat) = none) :
    decode s.cfg (codeBytes s) = .error (.unrecognized (s.mem.read s.pc.toNat)) := by
  simp only [codeBytes, decode, memRead, h]

theorem fetchOverflows_iff {n : Nat} {s : State} :
    fetchOverflows n s = true ↔ s.cfg.addrOverflow = .fault ∧ 65536 ≤ s.pc.toNat + n := by
  simp only [fetchOverflows, Bool.and_eq_true, decide_eq_true_eq]

/-- Settles O6: `settle` keeps exec's state, or gives back the old one with the raised RS. -/
theorem stepRunsTheDecodedInstruction : Obligations.StepRunsTheDecodedInstruction := by
  intro s i rest hr hd ho t ht
  have hstep : step s = settle s (.next t) := (step_of_ok hr hd ho).trans (congrArg (settle s) ht)
  exact ⟨fun _ hf => hstep.trans (settle_of_faulted hf), fun hf => hstep.trans (settle_of_not_faulted hf)⟩

/-- Settles O7: the byte at PC does not decode, so the step takes the branch that reports it. -/
theorem unrecognizedOpcodeIsReportedAndSkipped : Obligations.UnrecognizedOpcodeIsReportedAndSkipped :=
  fun _ hr hd ho => step_of_error hr (decode_codeBytes_of_unrecognized hd) ho

/-- Settles O8: both fetches overflow, of the instruction's length and of the one unrecognized byte. -/
theorem fetchPastTheTopFaults : Obligations.FetchPastTheTopFaults := by
  intro s hr hf
  refine ⟨fun i rest hd hlen => ?_, fun hd hpc => ?_⟩
  · exact step_of_ok_overflow hr hd (fetchOverflows_iff.mpr ⟨hf, hlen⟩)
  · exact step_of_error_overflow hr (decode_codeBytes_of_unrecognized hd)
      (fetchOverflows_iff.mpr ⟨hf, by simp [hpc]⟩)

theorem settle_next_returns (s u : State) : ∃ t, settle s (.next u) = .next t := by
  cases hr : u.rs with
  | running | halted _ => exact ⟨u, settle_of_not_faulted (by simp [hr])⟩
  | faulted f => exact ⟨raise f s, settle_of_faulted hr⟩

/-- Settles O11, by the branches of a step: exec always answers a next state, which `settle` keeps or rolls back. -/
theorem stepAlwaysReturns : Obligations.StepAlwaysReturns := by
  intro s
  by_cases hr : s.rs = .running
  · cases hd : decode s.cfg (codeBytes s) with
    | error err =>
      cases ho : fetchOverflows 1 s with
      | true => exact ⟨_, step_of_error_overflow hr hd ho⟩
      | false => exact ⟨_, step_of_error hr hd ho⟩
    | ok i rest =>
      cases ho : fetchOverflows i.length s with
      | true => exact ⟨_, step_of_ok_overflow hr hd ho⟩
      | false =>
        obtain ⟨u, hu, -⟩ := exec_cases i (fetchedState i.length s)
        rw [step_of_ok hr hd ho, hu]
        exact settle_next_returns s u
  · exact ⟨s, step_not_running s hr⟩

end EncodingFamily

end Sys2Proof.Machine

/-! PROOFS. The family of 40_flag_algebra.md: the bit primitives, SetZN and the ALU. -/
namespace Sys2Proof.Machine

section FlagAlgebraFamily

open Sys2Proof.Says

/-! ### The bit primitives (40_flag_algebra.md R80-R83) -/

/-- Bit `k` after `set_bit(v, n)`. -/
theorem getBit_setBit {w : Nat} (v : BitVec w) (n k : Nat) (hn : n < w) :
    getBit (setBit v n) k = if k = n then true else getBit v k :=
  getLsbD_putBit v n k true hn

/-- Bit `k` after `clear_bit(v, n)`. -/
theorem getBit_clearBit {w : Nat} (v : BitVec w) (n k : Nat) (hn : n < w) :
    getBit (clearBit v n) k = if k = n then false else getBit v k :=
  getLsbD_putBit v n k false hn

/-- Settles O27: each law is one branch of what a primitive does to bit `k`. -/
theorem bitPrimitiveLaws : Obligations.BitPrimitiveLaws := by
  intro w v n m hn _ hmn
  refine ⟨?_, ?_, ?_, ?_⟩
  · rw [getBit_setBit v n n hn, if_pos rfl]
  · rw [getBit_clearBit v n n hn, if_pos rfl]
  · rw [getBit_setBit v n m hn, if_neg hmn]
  · rw [getBit_clearBit v n m hn, if_neg hmn]

/-! ### SetZN (40_flag_algebra.md R84) -/

/-- A byte is 0x00 exactly when its number is 0. -/
theorem byte_beq_zero (v : Byte) : (v == 0x00) = decide (v.toNat = 0) := by
  rw [beq_eq_decide]
  exact decide_eq_decide.mpr BitVec.toNat_inj.symm

/-- SetZN on a status byte, in the terms of the statements. -/
theorem zn_zeroNegative (v sr : Byte) : ZN v sr (zeroNegative v sr) := by
  have hz : bit (zeroNegative v sr) 1 = (v == 0x00) := getLsbD_zeroNegative v sr 1
  have hn : bit (zeroNegative v sr) 7 = v.getLsbD 7 := getLsbD_zeroNegative v sr 7
  refine ⟨hz.trans (byte_beq_zero v), hn.trans (byte_bit7 v), fun k _ hk => ?_⟩
  obtain ⟨h1, h7⟩ : k ≠ 1 ∧ k ≠ 7 := by simpa using hk
  change (zeroNegative v sr).getLsbD k = sr.getLsbD k
  rw [getLsbD_zeroNegative, if_neg h7, if_neg h1]

/-- Settles O28: SetZN is one write of SR, of the byte that `zn_zeroNegative` describes. -/
theorem setZNWritesExactlyZAndN : Obligations.SetZNWritesExactlyZAndN :=
  fun v s => ⟨rfl, zn_zeroNegative v s.sr⟩

/-! ### The ALU (40_flag_algebra.md R86, R87) -/

section Alu

variable (carryIn cin : Bool) (a b : Byte)

/-- `zero` is read off the result, whatever the op. -/
theorem alu_zero (op : AluOp) :
    (alu carryIn op a b cin).zero = decide ((alu carryIn op a b cin).res.toNat = 0) := by
  cases op <;> exact byte_beq_zero _

/-- `neg` is bit 7 of the result, whatever the op. -/
theorem alu_neg (op : AluOp) :
    (alu carryIn op a b cin).neg = decide (128 ≤ (alu carryIn op a b cin).res.toNat) := by
  cases op <;> exact byte_bit7 _

/-- ADD: the low byte of the wide sum, and its bit 8 as the carry. -/
theorem alu_add :
    (alu carryIn .add a b cin).res.toNat = (a.toNat + b.toNat + (carryIn && cin).toNat) % 256 ∧
    (alu carryIn .add a b cin).cout = some (decide (256 ≤ a.toNat + b.toNat + (carryIn && cin).toNat)) :=
  ⟨wideSum_low a b _, congrArg some (wideSum_bit8 a b _)⟩

/-- SHL: twice the byte, and its bit 7 as the carry. -/
theorem alu_shl :
    (alu carryIn .shl a b cin).res.toNat = 2 * a.toNat % 256 ∧
    (alu carryIn .shl a b cin).cout = some (decide (128 ≤ a.toNat)) :=
  ⟨shl_toNat a, congrArg some (byte_bit7 a)⟩

/-- INC: one more, modulo 256, and no carry. -/
theorem alu_inc :
    (alu carryIn .inc a b cin).res.toNat = (a.toNat + 1) % 256 ∧ (alu carryIn .inc a b cin).cout = none :=
  ⟨BitVec.toNat_add a 1, rfl⟩

/-- DEC: one less, modulo 256, and no carry. -/
theorem alu_dec :
    (alu carryIn .dec a b cin).res.toNat = (a.toNat + 255) % 256 ∧ (alu carryIn .dec a b cin).cout = none := by
  refine ⟨?_, rfl⟩
  calc (a - 1).toNat = (255 + a.toNat) % 256 := BitVec.toNat_sub a 1
    _ = (a.toNat + 255) % 256 := by rw [Nat.add_comm]

end Alu

/-- Settles O29: the flags hold for every op, and each row of the table is its op's lemma. -/
theorem aluComputesItsTable : Obligations.AluComputesItsTable := by
  intro carryIn cin a b op r sum
  have hsum : a.toNat + b.toNat + (carryIn && cin).toNat = sum := by
    cases h : carryIn && cin <;> simp [sum, h]
  refine ⟨alu_zero carryIn cin a b op, alu_neg carryIn cin a b op, ?add, ?shl, ?inc, ?dec, ?pass⟩
  case add => rintro rfl; exact hsum ▸ alu_add carryIn cin a b
  case shl => rintro rfl; exact alu_shl carryIn cin a b
  case inc => rintro rfl; exact alu_inc carryIn cin a b
  case dec => rintro rfl; exact alu_dec carryIn cin a b
  case pass => rintro rfl; exact ⟨rfl, rfl⟩

end FlagAlgebraFamily

end Sys2Proof.Machine

/-! PROOFS. The family of 41_load_store.md: how a row of the table runs, and LDA and the stores. -/
namespace Sys2Proof.Machine

section LoadStoreFamily

open Sys2Proof.Says

/-! ### The row of an instruction (30_encoding.md R62, R70, R71) -/

/-- Bytes that decode to an instruction run as it, faults included: a running machine that has them at PC decodes them,
and the laws of the decoded instruction's step and of its fetch fault say the rest. -/
theorem runsAs_of_decode {ok : Config → Prop} {i : Instr} {bytes : List Byte}
    (hd : ∀ c rest, ok c → decode c (bytes ++ rest) = .ok i rest) : RunsAs ok i bytes := by
  have fetched {s : State} {rest : List Byte} (hok : ok s.cfg) (hb : codeBytes s = bytes ++ rest) :
      decode s.cfg (codeBytes s) = .ok i rest ∧ bytes.length = i.length := by
    have h := hd s.cfg rest hok
    have hlen := decode_length h
    rw [List.length_append] at hlen
    exact ⟨hb ▸ h, Nat.add_right_cancel hlen⟩
  have reached {n : Nat} {s : State} (h : ¬(s.cfg.addrOverflow = .fault ∧ 65536 ≤ s.pc.toNat + n)) :
      fetchOverflows n s = false := Bool.eq_false_iff.mpr (mt fetchOverflows_iff.mp h)
  refine ⟨⟨hd, fun s rest hok hr hb ho t ht hf => ?runs⟩,
    fun s rest hok hr hb => ⟨fun ⟨hp, hpc⟩ => ?fetchFaults, fun ho t f ht hf => ?execFaults⟩⟩ <;>
    obtain ⟨hdec, hlen⟩ := fetched hok hb
  case fetchFaults => exact (fetchPastTheTopFaults s hr hp).1 i rest hdec (hlen ▸ hpc)
  all_goals
    rw [hlen] at ho ht
    obtain ⟨faults, runs⟩ := stepRunsTheDecodedInstruction s i rest hr hdec (reached ho) t ht
  case runs => exact runs hf
  case execFaults => exact faults f hf

section Rows

variable {op : Byte}

/-- A row with a byte operand. -/
theorem runsOrFaults_byteRow {mk : Byte → Instr} (h : lookupRow op opcodeTable = some (.byte mk)) (v : Byte) :
    RunsOrFaults (mk v) [op, v] :=
  runsAs_of_decode fun _ _ _ => by simp [decode, dispatch_of_lookup h, assemble]

theorem wordForm_eq_lo_hi (v : Word) : wordForm op v = [op, lo v, hi v] := by
  have hlo : lowByte v = lo v := BitVec.eq_of_toNat_eq (by simp)
  have hhi : highByte v = hi v := BitVec.eq_of_toNat_eq (by simp; omega)
  rw [wordForm, hlo, hhi]

/-- A row with a word operand, low byte first (30_encoding.md R63). -/
theorem runsOrFaults_wordRow {mk : Word → Instr} (h : lookupRow op opcodeTable = some (.word mk)) (v : Word) :
    RunsOrFaults (mk v) [op, lo v, hi v] :=
  runsAs_of_decode fun _ rest _ => wordForm_eq_lo_hi v ▸ decode_wordForm h v rest

end Rows

/-! ### LDA (41_load_store.md R90) -/

/-- Settles O32: the row of 0xA9, and one equation of exec per value of `P_LDA_SETS_ZN`. -/
theorem ldaLoadsTheImmediate : Obligations.LdaLoadsTheImmediate := by
  refine fun v => ⟨runsOrFaults_byteRow rfl v, fun s => ?_⟩
  cases hz : s.cfg.ldaSetsZN with
  | true => exact ⟨_, exec_ldaImm_of_setsZN v hz, rfl, fun _ => zn_zeroNegative v s.sr, nofun⟩
  | false => exact ⟨_, exec_ldaImm_of_keepsZN v hz, rfl, nofun, fun _ => rfl⟩

/-! ### The stores (41_load_store.md R91-R95) -/

/-- A zero-page store is never refused, and writes the byte at the zero-extended operand. -/
theorem memWrite_zeroPage (zp v : Byte) (s : State) :
    memWrite (zeroPageAddr zp) v .unpriv s = { s with mem := s.mem.write zp.toNat v } := by
  have haddr : (zeroPageAddr zp).toNat = zp.toNat := by simp [zeroPageAddr]; omega
  rcases memWrite_cases s (zeroPageAddr zp) v .unpriv with ⟨-, hp, -⟩ | ⟨-, e⟩
  · exact absurd hp (Bool.eq_false_iff.mp (isProtected_zeroPage zp))
  · rw [e, haddr]

/-- An instruction that answers with the zero-page store of `v` changes that one byte and nothing else. -/
theorem exec_oneByte_of_zeroPageStore {i : Instr} {zp v : Byte} {s : State}
    (h : exec i s = .next (memWrite (zeroPageAddr zp) v .unpriv s)) :
    ∃ t, exec i s = .next t ∧ t = { s with mem := t.mem } ∧ OneByte zp.toNat v s.mem t.mem :=
  ⟨_, h.trans (congrArg _ (memWrite_zeroPage zp v s)), rfl, oneByte_write s.mem zp.toNat v⟩

/-- Settles O33: three rows with a byte operand, each a zero-page store of its register. -/
theorem zeroPageStoresWriteOneByte : Obligations.ZeroPageStoresWriteOneByte := by
  refine fun zp => ⟨⟨?sta, ?stx, ?sty⟩, fun s => ⟨?a, ?x, ?y⟩⟩
  case sta | stx | sty => exact runsOrFaults_byteRow rfl zp
  case a | x | y => exact exec_oneByte_of_zeroPageStore rfl

/-- Settles O34: the row of 0x8D, and one unprivileged write of A. -/
theorem staAbsoluteStoresOrIsRefused : Obligations.StaAbsoluteStoresOrIsRefused :=
  fun addr => ⟨runsOrFaults_wordRow rfl addr, fun s => ⟨_, rfl, memWrite_unpriv_stored addr s.a s⟩⟩

end LoadStoreFamily

end Sys2Proof.Machine

/-! PROOFS. The family of 42_arithmetic.md: ADC in its three forms and ASL A, both through the ALU into A. -/
namespace Sys2Proof.Machine

section ArithmeticFamily

open Sys2Proof.Says

/-- A row with no operand. -/
theorem runsOrFaults_impliedRow {op : Byte} {i : Instr} (h : lookupRow op opcodeTable = some (.implied i)) :
    RunsOrFaults i [op] :=
  runsAs_of_decode fun _ _ _ => by simp [decode, dispatch_of_lookup h, assemble]

/-- A zero-page read takes the byte at the zero-extended operand. -/
theorem memRead_zeroPage (zp : Byte) (s : State) : memRead (zeroPageAddr zp) s = s.mem.read zp.toNat := by
  have haddr : (zeroPageAddr zp).toNat = zp.toNat := by simp [zeroPageAddr]; omega
  rw [memRead, haddr]

/-- SR after an ALU result with a carry is put in A: C is that carry, Z and N are the result's, no other bit changes. -/
theorem aluToA_sr {r : AluResult} {c : Bool} (hc : r.cout = some c) (s : State) :
    bit (aluToA r s).sr 0 = c ∧ bit (aluToA r s).sr 1 = decide (r.res.toNat = 0) ∧
    bit (aluToA r s).sr 7 = decide (128 ≤ r.res.toNat) ∧ OnlyBits [0, 1, 7] s.sr (aluToA r s).sr := by
  obtain ⟨hz, hn, hkeeps⟩ : ZN r.res (putCarry r.cout s.sr) (aluToA r s).sr := zn_zeroNegative _ _
  have hcarry (k : Nat) : bit (putCarry r.cout s.sr) k = if k = 0 then c else bit s.sr k := by
    rw [hc]
    exact getLsbD_putCarry (some c) s.sr k
  refine ⟨?carry, hz, hn, fun k hk hout => ?others⟩
  case carry => exact (hkeeps 0 (by decide) (by decide)).trans (hcarry 0)
  case others =>
    obtain ⟨h0, hzn⟩ : k ≠ 0 ∧ k ∉ [1, 7] := by simpa using hout
    rw [hkeeps k hk hzn, hcarry, if_neg h0]

/-! ### ADC (42_arithmetic.md R100-R102, R105) -/

/-- ADC puts the ALU's ADD row in A, C, Z and N. -/
theorem added_adc (m : Byte) (s : State) : Added m s (adc m s) := by
  obtain ⟨-, -, hadd, -⟩ := aluComputesItsTable s.cfg.adcCarryIn (bit s.sr 0) s.a m .add
  obtain ⟨hres, hcout⟩ := hadd rfl
  exact ⟨rfl, hres, hres ▸ aluToA_sr hcout s⟩

/-- Settles O35: three rows of the table, each one `adc` of its operand byte. -/
theorem adcAddsWithCarryOut : Obligations.AdcAddsWithCarryOut := by
  refine ⟨fun v => ⟨runsOrFaults_byteRow rfl v, fun s => ?imm⟩,
    fun zp => ⟨runsOrFaults_byteRow rfl zp, fun s => ?zeroPage⟩,
    fun addr => ⟨runsOrFaults_wordRow rfl addr, fun s => ?absolute⟩⟩
  case imm => exact ⟨_, rfl, added_adc v s⟩
  case zeroPage => exact ⟨_, rfl, memRead_zeroPage zp s ▸ added_adc (memRead (zeroPageAddr zp) s) s⟩
  case absolute => exact ⟨_, rfl, added_adc (memRead addr s) s⟩

/-! ### ASL A (42_arithmetic.md R103, R106) -/

/-- Settles O36: the row of 0x0A, and the ALU's SHL row put in A, C, Z and N. -/
theorem aslDoublesTheAccumulator : Obligations.AslDoublesTheAccumulator := by
  refine ⟨(runsOrFaults_impliedRow rfl).1, fun s => ?_⟩
  obtain ⟨-, -, -, hshl, -⟩ := aluComputesItsTable s.cfg.adcCarryIn false s.a 0x00 .shl
  obtain ⟨hres, hcout⟩ := hshl rfl
  exact ⟨_, rfl, rfl, hres, aluToA_sr hcout s⟩

end ArithmeticFamily

end Sys2Proof.Machine

/-! PROOFS. The family of 43_transfer_incdec.md: the transfers, TSX and TXS and their round trip, and the increments and
decrements. -/
namespace Sys2Proof.Machine

section TransferIncDecFamily

open Sys2Proof.Says

/-- A row with no operand, where its faults are not asked for. -/
theorem runs_impliedRow {op : Byte} {i : Instr} (h : lookupRow op opcodeTable = some (.implied i)) : Runs i [op] :=
  (runsOrFaults_impliedRow h).1

/-! ### SetZN_for (40_flag_algebra.md R85) -/

/-- SetZN_for takes Z and N from the byte that `P_ZN_FROM_A` selects. -/
theorem zn_setZNFor (m : ZnMnemonic) (r : Byte) (s : State) :
    ZN (znSource s.cfg m s.a r) s.sr (setZNFor m r s).sr := by
  simpa [znSource] using zn_zeroNegative (if s.cfg.znFromA.contains m then s.a else r) s.sr

/-- Where A holds the byte that was moved, `P_ZN_FROM_A` makes no difference. -/
theorem zn_setZNFor_a (m : ZnMnemonic) (s : State) : ZN s.a s.sr (setZNFor m s.a s).sr := by
  simpa only [znSource, ite_self] using zn_setZNFor m s.a s

/-! ### The transfers (43_transfer_incdec.md R111-R114) -/

/-- Settles O37: four rows of the table. A is the source or the destination of each transfer, so after the copy A holds
the byte that was moved. -/
theorem transfersCopyTheRegister : Obligations.TransfersCopyTheRegister := by
  refine ⟨⟨?taxRow, ?txaRow, ?tayRow, ?tyaRow⟩, fun s => ⟨?tax, ?txa, ?tay, ?tya⟩⟩
  case taxRow | txaRow | tayRow | tyaRow => exact runs_impliedRow rfl
  case tax => exact ⟨_, rfl, rfl, zn_setZNFor_a .tax (setX s.a s)⟩
  case txa => exact ⟨_, rfl, rfl, zn_setZNFor_a .txa (setA s.x s)⟩
  case tay => exact ⟨_, rfl, rfl, zn_setZNFor_a .tay (setY s.a s)⟩
  case tya => exact ⟨_, rfl, rfl, zn_setZNFor_a .tya (setA s.y s)⟩

/-! ### TSX and TXS (43_transfer_incdec.md R115, R116, R122) -/

/-- The pulled byte, with SP + 1 as a number modulo 256. -/
theorem pullByte_eq_pulled (s : State) : pullByte s = pulled s := by
  have hsp : (s.sp + 1).toNat = (s.sp.toNat + 1) % 256 := BitVec.toNat_add s.sp 1
  rw [pullByte_eq, hsp, pulled]

theorem pushed_push (v : Byte) (s : State) : Pushed v s (push v s) := by
  rw [push_eq]
  exact ⟨rfl, oneByte_write s.mem (0x100 + s.sp.toNat) v⟩

/-- Settles O38: the row of 0xBA, and one equation of exec per value of `P_TSX_TXS_MODE`. -/
theorem tsxPullsOrCopies : Obligations.TsxPullsOrCopies := by
  refine ⟨runs_impliedRow rfl, fun s => ?_⟩
  cases hm : s.cfg.tsxTxsMode with
  | stackPath =>
    refine ⟨_, exec_tsx_of_stackPath hm, ?_⟩
    rw [pullByte_eq_pulled]
    exact ⟨zn_setZNFor .tsx (pulled s) (setX (pulled s) (pullSP s)), fun _ => rfl, nofun⟩
  | direct => exact ⟨_, exec_tsx_of_direct hm, zn_setZNFor .tsx s.sp (setX s.sp s), nofun, fun _ => rfl⟩

/-- Settles O39: the row of 0x9A, and one equation of exec per value of `P_TSX_TXS_MODE`. -/
theorem txsPushesOrCopies : Obligations.TxsPushesOrCopies := by
  refine ⟨runs_impliedRow rfl, fun s => ?_⟩
  cases hm : s.cfg.tsxTxsMode with
  | stackPath => exact ⟨_, exec_txs_of_stackPath hm, fun _ => pushed_push s.x s, nofun⟩
  | direct => exact ⟨_, exec_txs_of_direct hm, nofun, fun _ => rfl⟩

/-- After a push, SP + 1 is the SP that the byte was written at. -/
theorem sp_add_one_of_pushed {v : Byte} {s t : State} (h : Pushed v s t) : t.sp + 1 = s.sp := by
  rw [h.1]
  exact BitVec.sub_add_cancel s.sp 1

theorem read_of_pushed {v : Byte} {s t : State} (h : Pushed v s t) : t.mem.read (0x100 + s.sp.toNat) = v :=
  (h.2 _).trans (if_pos rfl)

/-- A pull gives the pushed byte back (44_stack_flags.md R125, R126). -/
theorem pulled_of_pushed {v : Byte} {s t : State} (h : Pushed v s t) : pulled t = v := by
  rw [← pullByte_eq_pulled, pullByte_eq, sp_add_one_of_pushed h, read_of_pushed h]

/-- Settles O40: in each mode TXS leaves the configuration, A and SR alone, and TSX takes back the byte that TXS put on
the stack or in SP. -/
theorem txsThenTsxRoundTrip : Obligations.TxsThenTsxRoundTrip := by
  intro s
  obtain ⟨t, ht, hpush, hcopy⟩ := txsPushesOrCopies.2 s
  obtain ⟨u, hu, hzn, hpull, hcopyBack⟩ := tsxPullsOrCopies.2 t
  refine ⟨t, u, ht, hu, ?_⟩
  cases hm : s.cfg.tsxTxsMode with
  | stackPath =>
    have hpushed : Pushed s.x s t := hpush hm
    obtain ⟨m, rfl⟩ : ∃ m, t = { s with sp := s.sp - 1, mem := m } := ⟨t.mem, hpushed.1⟩
    have hpulled := hpull hm
    have hx : u.x = s.x := by rw [hpulled, pulled_of_pushed hpushed]
    have hsp : u.sp = s.sp := by rw [hpulled, sp_add_one_of_pushed hpushed]
    have hmem : u.mem.read (0x100 + s.sp.toNat) = s.x := by rw [hpulled, read_of_pushed hpushed]
    exact ⟨hx, fun _ => ⟨hsp, hmem⟩, nofun, hx ▸ hzn⟩
  | direct =>
    obtain rfl : t = { s with sp := s.x } := hcopy hm
    have hcopied := hcopyBack hm
    have hx : u.x = s.x := by rw [hcopied]
    have hsp : u.sp = s.x := by rw [hcopied]
    exact ⟨hx, nofun, fun _ => hsp, hx ▸ hzn⟩

/-! ### Increments and decrements (43_transfer_incdec.md R117-R121) -/

theorem increment_toNat (s : State) (r : Byte) : (increment s r).toNat = (r.toNat + 1) % 256 :=
  (alu_inc s.cfg.adcCarryIn false r 0x00).1

theorem decrement_toNat (s : State) (r : Byte) : (decrement s r).toNat = (r.toNat + 255) % 256 :=
  (alu_dec s.cfg.adcCarryIn false r 0x00).1

/-- Settles O41: four rows of the table, and the ALU's INC and DEC rows put in the register. -/
theorem incrementsAndDecrementsWrap : Obligations.IncrementsAndDecrementsWrap := by
  refine ⟨⟨?inxRow, ?inyRow, ?dexRow, ?deyRow⟩, fun s => ⟨?inx, ?iny, ?dex, ?dey⟩⟩
  case inxRow | inyRow | dexRow | deyRow => exact runs_impliedRow rfl
  case inx => exact ⟨_, rfl, rfl, increment_toNat s s.x, zn_setZNFor .inx _ (setX (increment s s.x) s)⟩
  case iny => exact ⟨_, rfl, rfl, increment_toNat s s.y, zn_setZNFor .iny _ (setY (increment s s.y) s)⟩
  case dex => exact ⟨_, rfl, rfl, decrement_toNat s s.x, zn_setZNFor .dex _ (setX (decrement s s.x) s)⟩
  case dey => exact ⟨_, rfl, rfl, decrement_toNat s s.y, zn_setZNFor .dey _ (setY (decrement s s.y) s)⟩

end TransferIncDecFamily

end Sys2Proof.Machine

/-! PROOFS. The family of 44_stack_flags.md: push and pull, PHA, PHP, PLA and PLP, flag control, and the D flag that no
instruction's result depends on. -/
namespace Sys2Proof.Machine

section StackFlagsFamily

open Sys2Proof.Says

/-! ### The stack (44_stack_flags.md R125-R130) -/

/-- Settles O31: a push leaves SP one below the byte it wrote, which is where a pull reads. -/
theorem pushThenPullReturnsByte : Obligations.PushThenPullReturnsByte := by
  intro v s
  have hpushed : Pushed v s (push v s) := pushed_push v s
  refine ⟨hpushed, fun u => ⟨pullByte_eq_pulled u, rfl⟩, ?byte, sp_add_one_of_pushed hpushed⟩
  case byte => rw [pullByte_eq_pulled, pulled_of_pushed hpushed]

/-- Settles O42: two rows of the table, each one push of its register. -/
theorem phaAndPhpPush : Obligations.PhaAndPhpPush := by
  refine ⟨⟨?phaRow, ?phpRow⟩, fun s => ⟨?pha, ?php⟩⟩
  case phaRow | phpRow => exact runs_impliedRow rfl
  case pha => exact ⟨_, rfl, pushed_push s.a s⟩
  case php => exact ⟨_, rfl, pushed_push s.sr s⟩

/-- Settles O43: the row of 0x68, and one equation of exec per value of `P_PLA_SETS_ZN`. -/
theorem plaPullsTheAccumulator : Obligations.PlaPullsTheAccumulator := by
  refine ⟨runs_impliedRow rfl, fun s => ?_⟩
  rw [← pullByte_eq_pulled]
  cases hz : s.cfg.plaSetsZN with
  | true => exact ⟨_, exec_pla_of_setsZN hz, rfl, fun _ => zn_zeroNegative (pullByte s) s.sr, nofun⟩
  | false => exact ⟨_, exec_pla_of_keepsZN hz, rfl, nofun, fun _ => rfl⟩

/-- A write of bit `n` changes no other bit (00_scope.md R12). -/
theorem onlyBits_putBit (v : Byte) (n : Nat) (b : Bool) (hn : n < 8) : OnlyBits [n] v (putBit v n b) := by
  intro k _ hk
  have hkn : k ≠ n := by simpa using hk
  exact (getLsbD_putBit v n k b hn).trans (if_neg hkn)

/-- Settles O44: the row of 0x28, and SR is the pulled byte with a write of its bit 5. -/
theorem plpPullsTheStatus : Obligations.PlpPullsTheStatus := by
  refine ⟨runs_impliedRow rfl, fun s => ⟨_, rfl, rfl, exec_plp_unused rfl, ?others⟩⟩
  case others =>
    rw [← pullByte_eq_pulled]
    exact onlyBits_putBit (pullByte s) bitUnused true (by decide)

/-! ### Flag control (44_stack_flags.md R131-R137) -/

/-- An instruction that always answers with one flag write is flag control of that bit. -/
theorem writesFlag_of_setFlag {i : Instr} {n : Nat} {b : Bool} (hn : n < 8)
    (h : ∀ s, exec i s = .next (setFlag n b s)) : WritesFlag i n b :=
  fun s => ⟨_, h s, rfl, (bit_setFlag s n n b hn).trans (if_pos rfl), onlyBits_putBit s.sr n b hn⟩

/-- Settles O45: seven rows of the table, each one flag write. -/
theorem flagControlWritesOneBit : Obligations.FlagControlWritesOneBit := by
  refine ⟨⟨?clcRow, ?secRow, ?cliRow, ?seiRow, ?clvRow, ?cldRow, ?sedRow⟩, ?clc, ?sec, ?cli, ?sei, ?clv, ?cld, ?sed⟩
  case clcRow | secRow | cliRow | seiRow | clvRow | cldRow | sedRow => exact runs_impliedRow rfl
  case clc | sec | cli | sei | clv | cld | sed => exact writesFlag_of_setFlag (by decide) fun _ => rfl

/-! ### The D flag (44_stack_flags.md R138)

Of the instructions other than PHP and BRK, only ADC reads SR, and it reads C alone. Each leaves in SR a rewrite of the
status byte it found, in which no bit but D depends on D. -/

/-- No bit of `f sr` but D depends on the D of `sr`. -/
def FreeOfD (f : Byte → Byte) : Prop := ∀ old new, OnlyBits [3] old new → OnlyBits [3] (f old) (f new)

namespace FreeOfD

theorem id : FreeOfD (fun sr => sr) := fun _ _ h => h

theorem const (v : Byte) : FreeOfD (fun _ => v) := fun _ _ _ _ _ _ => rfl

theorem putBit (n : Nat) (b : Bool) (hn : n < 8) : FreeOfD (putBit · n b) := by
  intro old new h k hk hD
  change (Machine.putBit new n b).getLsbD k = (Machine.putBit old n b).getLsbD k
  rw [getLsbD_putBit _ _ _ _ hn, getLsbD_putBit _ _ _ _ hn]
  split
  · rfl
  · exact h k hk hD

theorem zeroNegative (v : Byte) : FreeOfD (zeroNegative v) := fun _ _ h =>
  putBit bitN (getBit v 7) (by decide) _ _ (putBit bitZ (v == 0x00) (by decide) _ _ h)

theorem putCarry (cout : Option Bool) : FreeOfD (putCarry cout) := by
  cases cout with
  | none => exact id
  | some c => exact putBit bitC c (by decide)

/-- C, Z and N from an ALU result. -/
theorem aluFlags (r : AluResult) : FreeOfD (fun sr => Machine.zeroNegative r.res (Machine.putCarry r.cout sr)) :=
  fun _ _ h => zeroNegative r.res _ _ (putCarry r.cout _ _ h)

end FreeOfD

/-- From SR as it is and from SR with the other D, the execution answers one state `t` but for SR, which is one rewrite
`f` of the SR it started from. -/
def IgnoresD (i : Instr) (s : State) : Prop :=
  ∃ (t : State) (f : Byte → Byte), FreeOfD f ∧
    ∀ sr, OnlyBits [3] s.sr sr → exec i (setSR sr s) = .next (setSR (f sr) t)

theorem memWrite_setSR (addr : Word) (v : Byte) (p : Privilege) (sr : Byte) (s : State) :
    memWrite addr v p (setSR sr s) = setSR sr (memWrite addr v p s) := by
  rcases memWrite_cases s addr v p with ⟨hp, ha, e⟩ | ⟨hn, e⟩ <;> rw [e]
  · exact if_pos ⟨hp, ha⟩
  · exact if_neg hn

theorem push_setSR (v sr : Byte) (s : State) : push v (setSR sr s) = setSR sr (push v s) := by
  rw [push_eq, push_eq]
  rfl

namespace IgnoresD

variable {i : Instr} {s : State}

/-- An execution that neither reads nor writes SR. -/
theorem of_keeps (t : State) (h : ∀ sr, exec i (setSR sr s) = .next (setSR sr t)) : IgnoresD i s :=
  ⟨t, _, .id, fun sr _ => h sr⟩

theorem of_memWrite (addr : Word) (v : Byte)
    (h : ∀ sr, exec i (setSR sr s) = .next (memWrite addr v .unpriv (setSR sr s))) : IgnoresD i s :=
  .of_keeps _ fun sr => (h sr).trans (congrArg _ (memWrite_setSR addr v .unpriv sr s))

/-- A push of anything but SR. -/
theorem of_push (v : Byte) (h : ∀ sr, exec i (setSR sr s) = .next (push v (setSR sr s))) : IgnoresD i s :=
  .of_keeps _ fun sr => (h sr).trans (congrArg _ (push_setSR v sr s))

theorem of_setZN (t : State) (v : Byte) (h : ∀ sr, exec i (setSR sr s) = .next (setZN v (setSR sr t))) :
    IgnoresD i s :=
  ⟨t, _, .zeroNegative v, fun sr _ => h sr⟩

theorem of_setZNFor (t : State) (m : ZnMnemonic) (v : Byte)
    (h : ∀ sr, exec i (setSR sr s) = .next (setZNFor m v (setSR sr t))) : IgnoresD i s :=
  .of_setZN t (if t.cfg.znFromA.contains m then t.a else v) h

theorem of_aluToA (r : AluResult)
    (h : ∀ sr, OnlyBits [3] s.sr sr → exec i (setSR sr s) = .next (aluToA r (setSR sr s))) : IgnoresD i s :=
  ⟨setA r.res s, _, .aluFlags r, h⟩

/-- ADC reads C, which is not D. -/
theorem of_adc (m : Byte) (h : ∀ sr, exec i (setSR sr s) = .next (adc m (setSR sr s))) : IgnoresD i s := by
  refine .of_aluToA (alu s.cfg.adcCarryIn .add s.a m (getBit s.sr bitC)) fun sr hsr => (h sr).trans ?_
  have hC : getBit sr bitC = getBit s.sr bitC := hsr 0 (by decide) (by decide)
  rw [← hC]
  rfl

theorem of_setFlag (n : Nat) (b : Bool) (hn : n < 8)
    (h : ∀ sr, exec i (setSR sr s) = .next (setFlag n b (setSR sr s))) : IgnoresD i s :=
  ⟨s, _, .putBit n b hn, fun sr _ => h sr⟩

end IgnoresD

theorem exec_ignoresD (i : Instr) (s : State) (hphp : i ≠ .php) (hbrk : i ≠ .brk) : IgnoresD i s := by
  cases i with
  | php => exact absurd rfl hphp
  | brk => exact absurd rfl hbrk
  | ldaImm v =>
    cases hz : s.cfg.ldaSetsZN with
    | true => exact .of_setZN (setA v s) v fun _ => exec_ldaImm_of_setsZN v hz
    | false => exact .of_keeps (setA v s) fun _ => exec_ldaImm_of_keepsZN v hz
  | staZp zp => exact .of_memWrite (zeroPageAddr zp) s.a fun _ => rfl
  | staAbs addr => exact .of_memWrite addr s.a fun _ => rfl
  | stxZp zp => exact .of_memWrite (zeroPageAddr zp) s.x fun _ => rfl
  | styZp zp => exact .of_memWrite (zeroPageAddr zp) s.y fun _ => rfl
  | adcImm v => exact .of_adc v fun _ => rfl
  | adcZp zp => exact .of_adc (memRead (zeroPageAddr zp) s) fun _ => rfl
  | adcAbs addr => exact .of_adc (memRead addr s) fun _ => rfl
  | aslA => exact .of_aluToA (alu s.cfg.adcCarryIn .shl s.a 0x00 false) fun _ _ => rfl
  | tax => exact .of_setZNFor (setX s.a s) .tax s.a fun _ => rfl
  | txa => exact .of_setZNFor (setA s.x s) .txa s.x fun _ => rfl
  | tay => exact .of_setZNFor (setY s.a s) .tay s.a fun _ => rfl
  | tya => exact .of_setZNFor (setA s.y s) .tya s.y fun _ => rfl
  | inx => exact .of_setZNFor (setX (increment s s.x) s) .inx (increment s s.x) fun _ => rfl
  | iny => exact .of_setZNFor (setY (increment s s.y) s) .iny (increment s s.y) fun _ => rfl
  | dex => exact .of_setZNFor (setX (decrement s s.x) s) .dex (decrement s s.x) fun _ => rfl
  | dey => exact .of_setZNFor (setY (decrement s s.y) s) .dey (decrement s s.y) fun _ => rfl
  | tsx =>
    cases hm : s.cfg.tsxTxsMode with
    | stackPath =>
      exact .of_setZNFor (setX (pullByte s) (pullSP s)) .tsx (pullByte s) fun _ => exec_tsx_of_stackPath hm
    | direct => exact .of_setZNFor (setX s.sp s) .tsx s.sp fun _ => exec_tsx_of_direct hm
  | txs =>
    cases hm : s.cfg.tsxTxsMode with
    | stackPath => exact .of_push s.x fun _ => exec_txs_of_stackPath hm
    | direct => exact .of_keeps (setSP s.x s) fun _ => exec_txs_of_direct hm
  | pha => exact .of_push s.a fun _ => rfl
  | pla =>
    cases hz : s.cfg.plaSetsZN with
    | true => exact .of_setZN (setA (pullByte s) (pullSP s)) (pullByte s) fun _ => exec_pla_of_setsZN hz
    | false => exact .of_keeps (setA (pullByte s) (pullSP s)) fun _ => exec_pla_of_keepsZN hz
  | plp => exact ⟨pullSP s, _, .const (pullByte s ||| 0x20), fun _ _ => rfl⟩
  | clc | sec | cli | sei | clv | cld | sed => exact .of_setFlag _ _ (by decide) fun _ => rfl
  | jmpAbs addr => exact .of_keeps (setPC addr s) fun _ => rfl
  | jmpInd ptr =>
    rcases pointerTarget_cases ptr s with ⟨target, h⟩ | ⟨-, -, -, h⟩
    · exact .of_keeps (setPC target s) fun _ => exec_jmpInd_of_ok h
    · exact .of_keeps (raise (.addressOverflow 0xFFFF) s) fun _ => exec_jmpInd_of_error h
  | nop => exact .of_keeps s fun _ => rfl
  | print addr => exact .of_keeps (emit (.print addr (memRead addr s)) s) fun _ => rfl
  | exit status => exact .of_keeps (halt (status.getD 0x00) s) fun _ => rfl

/-- Settles O24: both executions answer one state but for SR, and the two SRs are one rewrite, free of D, of
bytes that differ in D alone. -/
theorem decimalFlagHasNoEffect : Obligations.DecimalFlagHasNoEffect := by
  intro i s t other hphp hbrk hother h
  obtain ⟨u, f, hf, hexec⟩ := exec_ignoresD i s hphp hbrk
  obtain rfl : t = setSR (f s.sr) u := Host.Outcome.next.inj (h.symm.trans (hexec s.sr fun _ _ _ => rfl))
  exact ⟨_, hexec other hother, rfl, hf _ _ hother⟩

end StackFlagsFamily

end Sys2Proof.Machine

/-! PROOFS. The family of 45_control_system.md: the jumps, BRK and the interrupt sequence it takes, NOP, PRINT and
EXIT. -/
namespace Sys2Proof.Machine

section ControlSystemFamily

open Sys2Proof.Says

/-! ### NOP and JMP abs (45_control_system.md R140, R144) -/

/-- Settles O49: the row of 0xEA, whose execution is the identity. -/
theorem nopDoesNothing : Obligations.NopDoesNothing := ⟨runsOrFaults_impliedRow rfl, fun _ => rfl⟩

/-- Settles O46: the row of 0x4C, whose execution is one write of PC. -/
theorem jmpAbsoluteSetsPC : Obligations.JmpAbsoluteSetsPC := fun addr => ⟨runsOrFaults_wordRow rfl addr, fun _ => rfl⟩

/-! ### PRINT and EXIT (45_control_system.md R145-R147, 30_encoding.md R69) -/

/-- An instruction runs from its encoding, the two optional rows included: what the encoder gives is decoded back. -/
theorem runsAs_of_encode {ok : Config → Prop} {i : Instr} {bytes : List Byte}
    (h : ∀ c, ok c → c.wf = true ∧ i.wf c = true ∧ encode c i = some bytes) : RunsAs ok i bytes := by
  refine runsAs_of_decode fun c rest hok => ?_
  obtain ⟨hc, hi, he⟩ := h c hok
  obtain ⟨front, hfront, hdec⟩ := decodeOfEncodeIsInstruction c i rest hc hi
  obtain rfl : front = bytes := Option.some.inj (hfront.symm.trans he)
  exact hdec

/-- Settles O50: the encoding of PRINT under the extension, and one event appended. -/
theorem printEmitsTheByte : Obligations.PrintEmitsTheByte := by
  refine fun addr op => ⟨runsAs_of_encode fun c ⟨hc, hx, hp⟩ => ⟨hc, ?wf, ?encoding⟩, fun _ => rfl⟩
  case wf => simp [Instr.wf, hx, hp]
  case encoding => simp [encode, hx, hp, wordForm_eq_lo_hi]

/-- Settles O51: the encoding of EXIT in the format the configuration names, and one write of RS. -/
theorem exitHalts : Obligations.ExitHalts := by
  refine ⟨fun op => runsAs_of_encode fun c ⟨hc, hx, he, hf⟩ => ⟨hc, ?impliedWf, ?implied⟩,
    fun op st => runsAs_of_encode fun c ⟨hc, hx, he, hf⟩ => ⟨hc, ?immediateWf, ?immediate⟩,
    fun _ => ⟨rfl, fun _ => rfl⟩⟩
  case impliedWf | immediateWf => simp [Instr.wf, hx, he, hf, ExitFormat.matchesStatus]
  case implied | immediate => simp [encode, hx, he]

/-! ### The checked increment (00_scope.md R19) -/

theorem nextAddr_eq_ok {addr : Word} {s : State} (h : addr ≠ 0xFFFF ∨ s.cfg.addrOverflow = .wrap) :
    nextAddr addr s = .ok (addr + 1) := by
  rcases nextAddr_cases s addr with ⟨hok, -⟩ | ⟨-, htop, hfault⟩
  · exact hok
  · rcases h with h | h
    · exact absurd htop h
    · simp [h] at hfault

theorem nextAddr_eq_error {addr : Word} {s : State} (htop : addr = 0xFFFF) (hfault : s.cfg.addrOverflow = .fault) :
    nextAddr addr s = .error (.addressOverflow 0xFFFF) := by
  rcases nextAddr_cases s addr with ⟨-, h⟩ | ⟨herror, -⟩
  · exact absurd ⟨htop, hfault⟩ h
  · exact herror

/-! ### JMP (ind) (45_control_system.md R141) -/

theorem exec_jmpInd_of_high_error {ptr : Word} {f : Fault} {s : State} (h : pointerHighAddr ptr s = .error f) :
    exec (.jmpInd ptr) s = .next (raise f s) :=
  exec_jmpInd_of_error (by simp only [pointerTarget, h])

/-- Once the high byte has an address, JMP (ind) puts the two bytes in PC and changes nothing else. -/
theorem exec_jmpInd_of_high_ok {ptr high : Word} {s : State} (h : pointerHighAddr ptr s = .ok high) :
    ∃ t, exec (.jmpInd ptr) s = .next t ∧ t = { s with pc := t.pc } ∧
      t.pc.toNat = (s.mem.read ptr.toNat).toNat + 256 * (s.mem.read high.toNat).toNat := by
  have htarget : pointerTarget ptr s = .ok (wordOf (memRead ptr s) (memRead high s)) := by simp only [pointerTarget, h]
  exact ⟨_, exec_jmpInd_of_ok htarget, rfl, wordOf_toNat _ _⟩

theorem pointerHighAddr_of_pageWrap {s : State} (ptr : Word) (hw : s.cfg.jmpIndPageWrap = true) :
    pointerHighAddr ptr s = .ok ((ptr &&& 0xFF00) ||| ((ptr + 1) &&& 0x00FF)) := by
  simp [pointerHighAddr, hw]

theorem pointerHighAddr_of_no_pageWrap {s : State} (ptr : Word) (hw : s.cfg.jmpIndPageWrap = false) :
    pointerHighAddr ptr s = nextAddr ptr s := by
  simp [pointerHighAddr, hw]

/-- Settles O47: the row of 0x6C, and one address of the high byte per value of `P_JMP_IND_PAGE_WRAP`; without the page
wrap that address is the checked increment's. -/
theorem jmpIndirectReadsThePointer : Obligations.JmpIndirectReadsThePointer := by
  refine fun ptr => ⟨runsOrFaults_wordRow rfl ptr, fun s => ⟨fun hw => ?pageWrap, fun hw hroom => ?nextByte,
    fun hw htop hfault => ?overflow⟩⟩
  case pageWrap =>
    rw [← pageWrap_toNat]
    exact exec_jmpInd_of_high_ok (pointerHighAddr_of_pageWrap ptr hw)
  case nextByte =>
    have hnext : (ptr + 1).toNat = (ptr.toNat + 1) % 65536 := BitVec.toNat_add ptr 1
    rw [← hnext]
    exact exec_jmpInd_of_high_ok ((pointerHighAddr_of_no_pageWrap ptr hw).trans (nextAddr_eq_ok hroom))
  case overflow =>
    exact exec_jmpInd_of_high_error ((pointerHighAddr_of_no_pageWrap ptr hw).trans (nextAddr_eq_error htop hfault))

/-! ### The interrupt sequence (60_exceptions.md R157) -/

theorem lowByte_eq_lo (v : Word) : lowByte v = lo v := BitVec.eq_of_toNat_eq (by simp)

theorem highByte_eq_hi (v : Word) : highByte v = hi v := BitVec.eq_of_toNat_eq (by simp; omega)

/-- The three pushed bytes stand at three different addresses of the stack page. -/
theorem framedMem_read (s : State) (a : Nat) :
    (framedMem s).read a =
      if a = 0x100 + s.sp.toNat then hi s.pc
      else if a = 0x100 + (s.sp.toNat + 255) % 256 then lo s.pc
      else if a = 0x100 + (s.sp.toNat + 254) % 256 then s.sr
      else s.mem.read a := by
  have h0 := s.sp.isLt
  have h1 : (s.sp - 1).toNat = (s.sp.toNat + 255) % 256 := by simp [BitVec.toNat_sub, Nat.add_comm]
  have h2 : (s.sp - 2).toNat = (s.sp.toNat + 254) % 256 := by simp [BitVec.toNat_sub, Nat.add_comm]
  simp only [framedMem, Memory.read_write, h1, h2, lowByte_eq_lo, highByte_eq_hi]
  by_cases hhigh : a = 0x100 + s.sp.toNat
  · rw [if_neg (by omega), if_neg (by omega), if_pos hhigh, if_pos hhigh]
  · by_cases hlow : a = 0x100 + (s.sp.toNat + 255) % 256
    · rw [if_neg (by omega), if_pos hlow, if_neg hhigh, if_pos hlow]
    · simp only [hhigh, hlow, if_false]

theorem bit_putBit_same (v : Byte) {n : Nat} (b : Bool) (hn : n < 8) : bit (putBit v n b) n = b :=
  (getLsbD_putBit v n n b hn).trans (if_pos rfl)

/-- The interrupt sequence writes no bit of SR but I, and I only under `P_INTERRUPT_SETS_I`. -/
theorem interruptSequence_sr (vec : Word) (s : State) :
    bit (interruptSequence vec s).sr 2 = (s.cfg.interruptSetsI || bit s.sr 2) ∧
      OnlyBits [2] s.sr (interruptSequence vec s).sr := by
  rw [interruptSequence_eq]
  cases hset : s.cfg.interruptSetsI with
  | true => exact ⟨bit_putBit_same s.sr true (by decide : bitI < 8), onlyBits_putBit s.sr bitI true (by decide)⟩
  | false => exact ⟨rfl, fun _ _ _ => rfl⟩

/-- The sequence at a vector pair above the stack page, which its pushes leave alone. -/
theorem tookInterrupt_interruptSequence {vec : Word} (hstack : 0x200 ≤ vec.toNat) (htop : vec.toNat < 0xFFFF)
    (s : State) : TookInterrupt vec.toNat s (interruptSequence vec s) := by
  have hnext : (vec + 1).toNat = vec.toNat + 1 := by simp [BitVec.toNat_add]; omega
  refine ⟨?frame, fun a => ?pushed, (interruptSequence_sr vec s).1, (interruptSequence_sr vec s).2, ?target⟩
  case frame => rw [interruptSequence_eq]
  case pushed =>
    rw [interruptSequence_eq]
    exact framedMem_read s a
  case target =>
    have hlow := framedMem_read_other s vec.toNat (.inr hstack)
    have hhigh := framedMem_read_other s (vec.toNat + 1) (.inr (by omega))
    rw [interruptSequence_eq, wordOf_toNat, hnext, hlow, hhigh]

/-! ### BRK (45_control_system.md R143) -/

/-- The BRK path takes the sequence at 0xFFFE with B set in SR. -/
theorem tookInterrupt_brkSequence (s : State) :
    TookInterrupt 0xFFFE { s with sr := putBit s.sr bitB true } (brkSequence s) :=
  tookInterrupt_interruptSequence (vec := irqVector) (by decide) (by decide) (setFlag bitB true s)

/-- Settles O48: the row of 0x00, and one equation of exec per value of `P_BRK_SKIPS_PADDING`; the padding skip is a
checked increment. -/
theorem brkTakesTheInterruptSequence : Obligations.BrkTakesTheInterruptSequence := by
  refine ⟨runsOrFaults_impliedRow rfl, fun s => ⟨putBit s.sr bitB true, ?breakSet, ?othersKept, fun hb => ?noPadding,
    fun hb hroom => ?padding, fun hb htop hfault => ?overflow⟩⟩
  case breakSet => exact bit_putBit_same s.sr true (by decide)
  case othersKept => exact onlyBits_putBit s.sr bitB true (by decide)
  case noPadding => exact ⟨_, exec_brk_of_no_padding hb, tookInterrupt_brkSequence s⟩
  case padding =>
    exact ⟨_, exec_brk_of_padding_ok hb (nextAddr_eq_ok hroom), tookInterrupt_brkSequence (setPC (s.pc + 1) s)⟩
  case overflow => exact exec_brk_of_padding_error hb (nextAddr_eq_error htop hfault)

end ControlSystemFamily

end Sys2Proof.Machine

/-! PROOFS. The family of 60_exceptions.md: the one fault, the diagnostics of a step, and the interrupt requests. -/
namespace Sys2Proof.Machine

section ExceptionsFamily

open Sys2Proof.Says

/-! ### The fault (60_exceptions.md R153) -/

/-- Settles O9, by the cases of a step: only the one that raises ends in Faulted, and it writes RS alone. -/
theorem faultKeepsEverythingButRunState : Obligations.FaultKeepsEverythingButRunState := by
  intro s t f hr h hf
  rcases step_cases h with ⟨hstopped, -⟩ | ⟨-, hpolicy, rfl⟩ | ⟨-, -, rfl⟩ | ⟨-, _, _, -, -, hsound⟩
  · exact absurd hr hstopped
  · obtain rfl := RunState.faulted.inj hf
    exact ⟨hpolicy, rfl, rfl⟩
  · have hreported : s.rs = .faulted f := hf
    simp [hr] at hreported
  · exact absurd hf (hsound f)

/-! ### The diagnostics of a step (60_exceptions.md R150, R151, R164) -/

/-- STA abs appends its refusal, or nothing. -/
theorem exec_staAbs_dl {addr : Word} {s t : State} (h : exec (.staAbs addr) s = .next t) :
    t.dl = s.dl ∨ t.dl = s.dl ++ [.writeRejected addr s.a] := by
  obtain rfl : memWrite addr s.a .unpriv s = t := Host.Outcome.next.inj h
  rcases memWrite_cases s addr s.a .unpriv with ⟨-, -, e⟩ | ⟨-, e⟩ <;> rw [e]
  · exact .inr rfl
  · exact .inl rfl

theorem exec_print_dl {addr : Word} {s t : State} (h : exec (.print addr) s = .next t) :
    t.dl = s.dl ++ [.print addr (s.mem.read addr.toNat)] :=
  of_exec_next (P := fun u => u.dl = s.dl ++ [.print addr (s.mem.read addr.toNat)]) ⟨_, rfl, rfl⟩ h

/-- A configuration that decodes PRINT has the diagnostic extension (30_encoding.md R69). -/
theorem diagExt_of_decode_print {c : Config} {bytes rest : List Byte} {addr : Word}
    (h : decode c bytes = .ok (.print addr) rest) : c.diagExt = true := by
  have hwf := (encode_of_decode h).1
  simp only [Instr.wf, Bool.and_eq_true] at hwf
  exact hwf.1

/-- Settles O22: the step itself reports an unrecognized byte, and of the executions only STA abs and PRINT write DL. -/
theorem atMostOneDiagnosticPerStep : Obligations.AtMostOneDiagnosticPerStep := by
  intro s t h
  rcases step_cases h with ⟨-, rfl⟩ | ⟨-, -, rfl⟩ | ⟨-, hop, rfl⟩ | ⟨-, i, rest, hd, he, -⟩
  · exact .inl rfl
  · exact .inl rfl
  · exact .inr (.inl ⟨rfl, hop⟩)
  · obtain ⟨-, -, -, -, -, -, hdl, -⟩ := onlyNamedInstructionsWriteEachRegister i _ t he
    rcases hdl with hkept | ⟨addr, rfl | rfl⟩
    · exact .inl hkept
    · exact (exec_staAbs_dl he).imp_right fun hrejected => .inr (.inl ⟨addr, hrejected, read_pc_of_decode hd rfl⟩)
    · have hprinted := exec_print_dl he
      exact .inr (.inr (.inr ⟨addr, hprinted, diagExt_of_decode_print hd⟩))

/-! ### Interrupt requests (60_exceptions.md R156-R161) -/

theorem transact_interrupt_of_running {s : State} (h : s.rs = .running) (kind : InterruptKind) :
    transact (.interrupt kind) s = .next (interruptDispatch kind s) :=
  congrArg Host.Outcome.next (whileRunning_of_running _ h)

theorem interruptDispatch_irq_of_masked {s : State} (hp : s.cfg.irqMaskedByI = true) (hi : bit s.sr 2 = true) :
    interruptDispatch .irq s = s := by
  have hbit : getBit s.sr bitI = true := hi
  simp [interruptDispatch, hp, hbit]

theorem interruptDispatch_irq_of_unmasked {s : State} (h : ¬(s.cfg.irqMaskedByI = true ∧ bit s.sr 2 = true)) :
    interruptDispatch .irq s = interruptSequence irqVector s := by
  have hbit : ¬(s.cfg.irqMaskedByI && getBit s.sr bitI) = true := by rwa [Bool.and_eq_true]
  rw [interruptDispatch, if_neg hbit]

/-- Settles O52: both requests run the one interrupt sequence, whose vectors lie above the stack page; a masked IRQ
runs nothing. -/
theorem nmiAndIrqTakeTheirVectors : Obligations.NmiAndIrqTakeTheirVectors := by
  refine fun s hr => ⟨?nmi, fun hunmasked => ?irqTaken, fun hp hi => ?irqMasked⟩
  case nmi =>
    exact ⟨_, transact_interrupt_of_running hr .nmi,
      tookInterrupt_interruptSequence (vec := nmiVector) (by decide) (by decide) s⟩
  case irqTaken =>
    refine ⟨_, transact_interrupt_of_running hr .irq, ?_⟩
    rw [interruptDispatch_irq_of_unmasked hunmasked]
    exact tookInterrupt_interruptSequence (vec := irqVector) (by decide) (by decide) s
  case irqMasked => rw [transact_interrupt_of_running hr, interruptDispatch_irq_of_masked hp hi]

/-- Settles O53: the request takes the BRK path on the PC as it is, with B set by one bit write. -/
theorem hostBrkSetsBreakThenVectors : Obligations.HostBrkSetsBreakThenVectors := fun s hr =>
  ⟨putBit s.sr bitB true, _, bit_putBit_same s.sr true (by decide), onlyBits_putBit s.sr bitB true (by decide),
    transact_interrupt_of_running hr .brk, tookInterrupt_brkSequence s⟩

/-- Settles O54: the dispatch of any other kind is one `emit`. -/
theorem unknownInterruptIsOnlyReported : Obligations.UnknownInterruptIsOnlyReported :=
  fun _ id hr => transact_interrupt_of_running hr (.other id)

end ExceptionsFamily

end Sys2Proof.Machine

/-! PROOFS. The family of 70_reset_and_hazards.md: the reset command, and the run modes as repeated steps. -/
namespace Sys2Proof.Machine

section ResetFamily

/-! ### Reset (70_reset_and_hazards.md R170, R172) -/

theorem transact_reset_of_running {s : State} (h : s.rs = .running) :
    transact .reset s = .next (resetSequence s) :=
  congrArg Host.Outcome.next (whileRunning_of_running _ h)

/-- Settles O18: both commands run the one reset sequence while Running, and are terminal commands otherwise. -/
theorem resetRestoresPowerOnValues : Obligations.ResetRestoresPowerOnValues := by
  refine ⟨fun s hr => ?running, fun s hr => ?terminal⟩
  case running =>
    exact ⟨_, transact_reset_of_running hr, transact_interrupt_of_running hr .reset, rfl, wordOf_toNat _ _⟩
  case terminal => exact ⟨terminalStatesNeverChange s .reset hr, terminalStatesNeverChange s (.interrupt .reset) hr⟩

/-! ### run_for (70_reset_and_hazards.md R177) -/

/-- A run takes its first step in every run state, because a step of a terminal state answers that state. -/
theorem runFor_succ {s t : State} (h : step s = .next t) (n : Nat) : runFor (n + 1) s = runFor n t := by
  by_cases hr : s.rs = .running
  · simp [runFor, hr, h]
  · obtain rfl : s = t := Host.Outcome.next.inj ((step_not_running s hr).symm.trans h)
    rw [runFor_of_not_running _ hr, runFor_of_not_running _ hr]

theorem runFor_one (s : State) : runFor 1 s = step s := by
  obtain ⟨t, ht⟩ := stepAlwaysReturns s
  exact (runFor_succ ht 0).trans ht.symm

/-- A run answers a next state, and a longer run goes on from it. -/
theorem runFor_add (m n : Nat) (s : State) : ∃ t, runFor m s = .next t ∧ runFor (m + n) s = runFor n t := by
  induction m generalizing s with
  | zero => exact ⟨s, rfl, by rw [Nat.zero_add]⟩
  | succ m ih =>
    obtain ⟨u, hu⟩ := stepAlwaysReturns s
    rw [Nat.add_right_comm, runFor_succ hu, runFor_succ hu]
    exact ih u

/-- Settles O57, by induction on the length of the first run. -/
theorem runForIsRepeatedStep : Obligations.RunForIsRepeatedStep :=
  fun s => ⟨rfl, runFor_one s, fun m n => runFor_add m n s⟩

/-! ### run_to_end (70_reset_and_hazards.md R178) -/

theorem runStops_iff {s : State} : runStops s = true ↔ s.pc = 0xFFFF ∨ s.rs ≠ .running := by
  simp [runStops, or_comm]

theorem runStops_eq_false_iff {s : State} : runStops s = false ↔ s.pc ≠ 0xFFFF ∧ s.rs = .running := by
  simp [runStops, and_comm]

theorem runToEnd_of_stops {s : State} (h : runStops s = true) (fuel : Nat) :
    runToEnd fuel s = .next (.stopped s) := by
  cases fuel <;> simp [runToEnd, h]

theorem runToEnd_zero_of_continues {s : State} (h : runStops s = false) : runToEnd 0 s = .next (.outOfFuel s) := by
  simp [runToEnd, h]

theorem runToEnd_succ_of_continues {s t : State} (h : runStops s = false) (ht : step s = .next t) (fuel : Nat) :
    runToEnd (fuel + 1) s = runToEnd fuel t := by
  simp [runToEnd, h, ht]

/-- `StopsAfter n s t`: from `s`, the stop test fails before each of `n` steps and holds in `t`, where they end. -/
inductive StopsAfter : Nat → State → State → Prop
  | here {s : State} (h : runStops s = true) : StopsAfter 0 s s
  | later {n : Nat} {s u t : State} (h : runStops s = false) (hu : step s = .next u) (ht : StopsAfter n u t) :
      StopsAfter (n + 1) s t

namespace StopsAfter

variable {n : Nat} {s t : State}

theorem stops (h : StopsAfter n s t) : runStops t = true := by
  induction h with
  | here h => exact h
  | later _ _ _ ih => exact ih

theorem runFor_eq (h : StopsAfter n s t) : runFor n s = .next t := by
  induction h with
  | here _ => rfl
  | later _ hu _ ih => exact (runFor_succ hu _).trans ih

theorem continues_before (h : StopsAfter n s t) {k : Nat} {u : State} (hk : k < n) (hu : runFor k s = .next u) :
    runStops u = false := by
  induction h generalizing k with
  | here _ => exact absurd hk k.not_lt_zero
  | later hs hstep _ ih =>
    cases k with
    | zero => exact Host.Outcome.next.inj hu ▸ hs
    | succ k => exact ih (Nat.lt_of_succ_lt_succ hk) ((runFor_succ hstep k).symm.trans hu)

/-- Fuel for the steps is enough, and more of it changes nothing. -/
theorem runToEnd_eq (h : StopsAfter n s t) (more : Nat) : runToEnd (n + more) s = .next (.stopped t) := by
  induction h with
  | here h => exact runToEnd_of_stops h _
  | later hs hu _ ih => rw [Nat.add_right_comm, runToEnd_succ_of_continues hs hu, ih]

end StopsAfter

/-- With `fuel` steps, `run_to_end` reaches the first state in which its test holds, or `fuel` steps do not. -/
theorem runToEnd_cases (fuel : Nat) (s : State) :
    (∃ n more t, fuel = n + more ∧ StopsAfter n s t) ∨
    (∃ t, runToEnd fuel s = .next (.outOfFuel t) ∧ runFor fuel s = .next t ∧ runStops t = false) := by
  induction fuel generalizing s with
  | zero =>
    cases h : runStops s with
    | true => exact .inl ⟨0, 0, s, rfl, .here h⟩
    | false => exact .inr ⟨s, runToEnd_zero_of_continues h, rfl, h⟩
  | succ fuel ih =>
    cases h : runStops s with
    | true => exact .inl ⟨0, fuel + 1, s, (Nat.zero_add _).symm, .here h⟩
    | false =>
      obtain ⟨u, hu⟩ := stepAlwaysReturns s
      rw [runToEnd_succ_of_continues h hu, runFor_succ hu]
      rcases ih u with ⟨n, more, t, rfl, ht⟩ | hout
      · exact .inl ⟨n + 1, more, t, Nat.add_right_comm _ _ _, .later h hu ht⟩
      · exact .inr hout

theorem stopsAfter_of_runToEnd_stopped {fuel : Nat} {s t : State} (h : runToEnd fuel s = .next (.stopped t)) :
    ∃ n more, fuel = n + more ∧ StopsAfter n s t := by
  rcases runToEnd_cases fuel s with ⟨n, more, u, rfl, hu⟩ | ⟨u, hout, -⟩
  · obtain rfl : u = t := by simpa [hu.runToEnd_eq] using h
    exact ⟨n, more, rfl, hu⟩
  · simp [hout] at h

theorem runFor_of_runToEnd_outOfFuel {fuel : Nat} {s t : State} (h : runToEnd fuel s = .next (.outOfFuel t)) :
    runFor fuel s = .next t ∧ runStops t = false := by
  rcases runToEnd_cases fuel s with ⟨n, more, u, rfl, hu⟩ | ⟨u, hout, hrun⟩
  · simp [hu.runToEnd_eq] at h
  · obtain rfl : u = t := by simpa [hout] using h
    exact hrun

theorem runToEnd_returns (fuel : Nat) (s : State) : ∃ r, runToEnd fuel s = .next r := by
  rcases runToEnd_cases fuel s with ⟨n, more, t, rfl, ht⟩ | ⟨t, hout, -⟩
  · exact ⟨_, ht.runToEnd_eq more⟩
  · exact ⟨_, hout⟩

/-- Settles O58, from the two ways a fuel-bounded run can end. -/
theorem runToEndStopsAtTheTop : Obligations.RunToEndStopsAtTheTop := by
  refine ⟨fun fuel s h => runToEnd_of_stops (runStops_iff.mpr h) fuel, fun fuel s t h => ?stopped,
    fun fuel s t h => ?outOfFuel, runToEnd_returns⟩
  case stopped =>
    obtain ⟨n, extra, rfl, ht⟩ := stopsAfter_of_runToEnd_stopped h
    refine ⟨runStops_iff.mp ht.stops, ⟨n, Nat.le_add_right n extra, ht.runFor_eq, fun k u hk hu => ?_⟩, fun more => ?_⟩
    · exact runStops_eq_false_iff.mp (ht.continues_before hk hu)
    · rw [Nat.add_assoc, ht.runToEnd_eq]
  case outOfFuel => exact (runFor_of_runToEnd_outOfFuel h).imp_right runStops_eq_false_iff.mp

end ResetFamily

end Sys2Proof.Machine
